-- ==== Sys2Proof/Word.lean ====
section
/-! DEFINITION. The words of the machine: the widths the spec fixes, and the two containers that hold a register
whose width is a parameter of the run. -/

namespace Sys2Proof

/-- One byte of memory: one address unit is 8 bits (R40). -/
abbrev Byte := BitVec 8

/-- A halfword, 16 bits, 2 bytes: the element of this instruction (R12, `esize = 16`). -/
abbrev Half := BitVec 16

/-- A general register, SP, the pc, an address: 64 bits (R20, R21, R22, R40). -/
abbrev Word64 := BitVec 64

/-- An instruction word: 32 bits (R6, R60). -/
abbrev InsnWord := BitVec 32

/-- The container of one vector register. A Z register is exactly VL bits (R23, D9) and VL is at most 2048 (R5): the
register's value is held zero-extended to 2048 bits, so the bits at VL and above are 0 (log 19). -/
abbrev VecReg := BitVec 2048

/-- The container of one predicate register. A P register is exactly PL = VL/8 bits (R24, D9), at most 256: held
zero-extended, so the bits at PL and above are 0 (log 19). -/
abbrev PredReg := BitVec 256

end Sys2Proof
end

