-- ==== Sys2Proof/Config.lean ====
section
/-! DEFINITION. What an implementation fixes for a run (00_scope.md R5), as plain data, and the free values: what the
spec leaves to a draw and no definition of this model decides. -/

namespace Sys2Proof

/-- The legal vector lengths: the powers of two from 128 to 2048 (R5, D4). No other length can be written, so the
premise "VL fixed, a power of two in 128..2048" of R121 holds of every state. -/
inductive VectorLength where
  | vl128
  | vl256
  | vl512
  | vl1024
  | vl2048
  deriving DecidableEq, Repr

/-- `CurrentVL()`: the vector length in bits (R84). -/
def VectorLength.bits : VectorLength → Nat
  | .vl128 => 128
  | .vl256 => 256
  | .vl512 => 512
  | .vl1024 => 1024
  | .vl2048 => 2048

/-- `PL = VL DIV 8`: bits of a predicate register, and bytes of a vector register (R5, R84). -/
def VectorLength.pl (v : VectorLength) : Nat := v.bits / 8

/-- `elements = VL DIV 16`: halfwords in one vector register (R5, R84). -/
def VectorLength.elements (v : VectorLength) : Nat := v.bits / 16

/-- One value of the parameter `counter_to_predicate` of R5 that is not that of the recommended body: the mask of `width`
bits that the function gives for `counter`. A mask has at most `PL * 4 = 1024` bits, held zero-extended (log 31). -/
structure CounterEntry where
  counter : Half
  width : Nat
  mask : BitVec 1024
  deriving DecidableEq, Repr

/-- The parameters of R5 that are constants of the hardware or of a run. They are data of the state that no step
changes, so a statement about every state is a statement about every configuration (DESIGN CHOICE, log 1; safe). -/
structure Config where
  /-- `IsFeatureImplemented(FEAT_SME2)` (R2, D2). -/
  featSme2 : Bool
  /-- `CurrentVL()` (R84, D4). -/
  vl : VectorLength
  /-- Data byte order, within each halfword (R42, D11). -/
  bigEndian : Bool
  /-- Whether an active element at an odd address raises AlignmentFault (R43, D12). -/
  alignCheck : Bool
  /-- `counter_to_predicate` (R5, R28, D5): the masks where the function differs from the recommended body of R85.
  Such a table can be any function of a 16-bit counter and the widths PL*2 and PL*4 (DESIGN CHOICE of representation,
  log 31; safe). -/
  counterTable : List CounterEntry
  deriving DecidableEq, Repr

/-- The defaults R5 gives (`feat_sme2` true, `big_endian` false, `align_check` false, `counter_to_predicate` the body of R85:
no entry), and for VL, to which R5 gives none, 128 (DESIGN CHOICE, log 2; unsafe: a claim about this one configuration says nothing of another length). -/
def Config.default : Config :=
  { featSme2 := true, vl := .vl128, bigEndian := false, alignCheck := false, counterTable := [] }

/-- FREE VALUE. The draw `check_sp_none_active`, the answer of
`ConstrainUnpredictableBool(Unpredictable_CHECKSPNONEACTIVE)` at the n-th draw of a run: a fresh Boolean at every
execution that consults it, both outcomes admitted (R5, R87, U1, D7; log 3; safe). -/
opaque Config.drawCheckSp : Nat → Bool

/-- FREE VALUE. Which of several faulting active elements is reported: the spec admits each of them (R49, D18; log 4;
safe). It is applied to the count of draws and reduced modulo the number of candidates. -/
opaque Config.reportedFault : Nat → Nat

end Sys2Proof
end

