-- ==== Sys2Proof/Syntax.lean ====
section
/-! DEFINITION. The instructions: one constructor for each row of spec/opcode_table.json, with its decoded operands
(30_encoding.md R63, R64). -/

namespace Sys2Proof

/-- The base operand `<Xn|SP>`: the field values 0 to 30 name X0 to X30 and 31 names SP; there is no encoding of a zero
register (R20, R21, R71 e). -/
inductive Base where
  | x (n : Fin 31)
  | sp
  deriving DecidableEq, Repr

/-- `n = UInt(Rn)` (R63, R64). -/
def Base.number : Base → Nat
  | .x n => n.val
  | .sp => 31

/-- The two encodings of LD1H (scalar plus immediate, strided registers). The operands are the decoded ones: `zt1` is
`t`, the number of the first destination; `pn` is `g`, the number of the governing predicate; `offset` is
`SInt(imm4)`, in units of the whole register list (the assembler's `<imm>` is `nreg * offset`, R65, C1). -/
inductive Instr where
  /-- Two registers, `ld1h_mzx_p_bi_2x8` (R61, R63, R81). -/
  | ld1hTwo (zt1 : Fin 32) (pn : Fin 16) (base : Base) (offset : Int)
  /-- Four registers, `ld1h_mzx_p_bi_4x4` (R62, R64, R82). -/
  | ld1hFour (zt1 : Fin 32) (pn : Fin 16) (base : Base) (offset : Int)
  deriving DecidableEq, Repr

/-- `nreg`: how many registers the list has (R63, R64). -/
def Instr.nreg : Instr → Nat
  | .ld1hTwo _ _ _ _ => 2
  | .ld1hFour _ _ _ _ => 4

/-- `tstride`: the distance of the destination register numbers (R63, R64; C5: not a memory stride). -/
def Instr.tstride : Instr → Nat
  | .ld1hTwo _ _ _ _ => 8
  | .ld1hFour _ _ _ _ => 4

/-- `t`: the number of the first destination register. -/
def Instr.zt1 : Instr → Fin 32
  | .ld1hTwo t _ _ _ => t
  | .ld1hFour t _ _ _ => t

/-- `g`: the number of the governing predicate register. -/
def Instr.pn : Instr → Fin 16
  | .ld1hTwo _ g _ _ => g
  | .ld1hFour _ g _ _ => g

/-- The base operand, `n` of the decode. -/
def Instr.base : Instr → Base
  | .ld1hTwo _ _ b _ => b
  | .ld1hFour _ _ b _ => b

/-- `offset = SInt(imm4)`. -/
def Instr.offset : Instr → Int
  | .ld1hTwo _ _ _ o => o
  | .ld1hFour _ _ _ o => o

end Sys2Proof
end

