-- ==== Sys2Proof/WellFormed.lean ====
section
/-! DEFINITION. Which instruction terms have an encoding (30_encoding.md R71): the conditions on the operands that the
types of Sys2Proof/Syntax.lean do not already carry. -/

namespace Sys2Proof

/-- The first destination: bit 3 of its number clear with two registers (0..7 or 16..23, R71 b); bits 3 and 2 clear
with four (0..3 or 16..19, R71 c). -/
abbrev Instr.destOk (i : Instr) : Prop := i.zt1.val % 16 < i.tstride

/-- The governing predicate is one of PN8 to PN15 (R71 d). -/
abbrev Instr.predOk (i : Instr) : Prop := 8 ≤ i.pn.val

/-- The offset is a signed 4-bit number; so `<imm>` is a multiple of nreg in `-8*nreg .. 7*nreg` (R65, R71 f). -/
abbrev Instr.offsetOk (i : Instr) : Prop := -8 ≤ i.offset ∧ i.offset ≤ 7

/-- A well-formed instruction: it has an encoding. -/
abbrev Instr.WellFormed (i : Instr) : Prop := i.destOk ∧ i.predOk ∧ i.offsetOk

end Sys2Proof
end

