-- ==== Sys2Proof/Decode.lean ====
section
/-! DEFINITION. The decoder, total on any bytes and rejecting by name, and the encoder, both written from the encoding
diagrams of 30_encoding.md (R61 to R67). -/

namespace Sys2Proof

/-- Why bytes are no instruction of this spec. -/
inductive DecodeError where
  /-- Fewer than the four bytes of a word (R60). -/
  | truncated
  /-- The word matches neither row: "not an instruction of this spec" (R67, D1). -/
  | notInSpec (w : InsnWord)
  deriving DecidableEq, Repr

/-! ## The opcode map (R66) -/

/-- A row of the opcode table: the fixed bits and their values. -/
structure OpcodeRow where
  mask : InsnWord
  pattern : InsnWord
  deriving DecidableEq, Repr

/-- Row 1 of spec/opcode_table.json, LD1H_2 (R61, R66). -/
def rowTwo : OpcodeRow := { mask := 0xFFF0E008#32, pattern := 0xA1402000#32 }

/-- Row 2 of spec/opcode_table.json, LD1H_4 (R62, R66). -/
def rowFour : OpcodeRow := { mask := 0xFFF0E00C#32, pattern := 0xA140A000#32 }

/-- The fixed bits of the row stand in the word (R66). -/
def rowMatches (r : OpcodeRow) (w : InsnWord) : Bool := w &&& r.mask == r.pattern

/-! ## Fields (R61, R62) and their decode (R63, R64) -/

/-- `n = UInt(Rn)`, bits 9:5; 31 is SP (R63, R21). -/
def decodeBase (w : InsnWord) : Base :=
  if h : (w.extractLsb' 5 5).toNat < 31 then .x ⟨(w.extractLsb' 5 5).toNat, h⟩ else .sp

/-- `g = UInt('1'::PNg)`, bits 12:10: PN8 to PN15 (R63). -/
def decodePn (w : InsnWord) : Fin 16 := ((1#1) ++ w.extractLsb' 10 3).toFin

/-- `offset = SInt(imm4)`, bits 19:16 (R63, R65). -/
def decodeOffset (w : InsnWord) : Int := (w.extractLsb' 16 4).toInt

/-- `t = UInt(T::'0'::Zt)`: T is bit 4, Zt bits 2:0 (R63). -/
def decodeZtTwo (w : InsnWord) : Fin 32 := (w.extractLsb' 4 1 ++ 0#1 ++ w.extractLsb' 0 3).toFin

/-- `t = UInt(T::'00'::Zt)`: T is bit 4, Zt bits 1:0 (R64). -/
def decodeZtFour (w : InsnWord) : Fin 32 := (w.extractLsb' 4 1 ++ 0#2 ++ w.extractLsb' 0 2).toFin

/-- The instruction of a word (R63, R64, R66, R67). The feature test of both decodes is a test on a constant of the
machine, not on the word: it is step S0 of the meaning (R80), where it raises Undefined (log 30; safe). -/
def decode (w : InsnWord) : Except DecodeError Instr :=
  if rowMatches rowTwo w then
    .ok (.ld1hTwo (decodeZtTwo w) (decodePn w) (decodeBase w) (decodeOffset w))
  else if rowMatches rowFour w then
    .ok (.ld1hFour (decodeZtFour w) (decodePn w) (decodeBase w) (decodeOffset w))
  else
    .error (.notInSpec w)

/-- A word from its four bytes, the least significant at the lowest address, whatever `big_endian` is (R55). -/
def wordOfBytes (b0 b1 b2 b3 : Byte) : InsnWord := b3 ++ b2 ++ b1 ++ b0

/-- The four bytes of a word, lowest address first (R55). -/
def bytesOfWord (w : InsnWord) : List Byte :=
  [w.extractLsb' 0 8, w.extractLsb' 8 8, w.extractLsb' 16 8, w.extractLsb' 24 8]

/-- The decoder on any bytes: the first instruction and the bytes after it. -/
def decodeBytes : List Byte → Except DecodeError (Instr × List Byte)
  | b0 :: b1 :: b2 :: b3 :: rest =>
    match decode (wordOfBytes b0 b1 b2 b3) with
    | .ok i => .ok (i, rest)
    | .error e => .error e
  | _ => .error .truncated

/-- The word whose low `nbits` bits are those of `w` and whose other bits are 0. -/
def tableWord (nbits w : Nat) : InsnWord := BitVec.ofNat 32 (w % 2 ^ nbits)

/-- The instruction the decoder reads from a word numbered as spec/opcode_table.json numbers it: its bytes are laid out
as the hardware stores them and given to the decoder. -/
def decodeTableWord (nbits w : Nat) : Option Instr :=
  match decodeBytes (bytesOfWord (tableWord nbits w)) with
  | .ok (i, _) => some i
  | .error _ => none

/-! ## The encoder (R61, R62) -/

/-- The field Rn (R21, R63). -/
def encodeBase (b : Base) : BitVec 5 := BitVec.ofNat 5 b.number

/-- The field PNg: the number of the predicate register less 8 (R63). -/
def encodePn (g : Fin 16) : BitVec 3 := BitVec.ofNat 3 g.val

/-- The field imm4 (R65). -/
def encodeOffset (o : Int) : BitVec 4 := BitVec.ofInt 4 o

/-- The field T: bit 4 of the first destination's number (R63, R64). -/
def encodeT (t : Fin 32) : BitVec 1 := BitVec.ofNat 1 (t.val / 16)

/-- The word of a well-formed instruction, field by field from bit 31 down (R61, R62). -/
def encode : Instr → InsnWord
  | .ld1hTwo t g b o =>
    0b101000010100#12 ++ encodeOffset o ++ 0b001#3 ++ encodePn g ++ encodeBase b ++ encodeT t ++ 0b0#1 ++ BitVec.ofNat 3 t.val
  | .ld1hFour t g b o =>
    0b101000010100#12 ++ encodeOffset o ++ 0b101#3 ++ encodePn g ++ encodeBase b ++ encodeT t ++ 0b00#2 ++ BitVec.ofNat 2 t.val

end Sys2Proof
end

