-- ==== Sys2Proof/Machine/State.lean ====
section
/-! DEFINITION. The state of the machine, the reasons a step can stop, and the state after reset. -/

namespace Sys2Proof.Machine

/-- The exceptions of R100. Each ends the run with the state unchanged: no source says what the hardware does when one is
taken (R107, R108, D16; log 10). -/
inductive Fault where
  /-- Raised by decode on hardware without FEAT_SME2, with the instruction word (R101). Safe: the spec's own fault. -/
  | undefined (word : InsnWord)
  /-- Raised by CheckStreamingSVEEnabled when SME access is trapped (R83, R102). Safe. -/
  | smeAccessTrap
  /-- Raised by CheckStreamingSVEEnabled outside Streaming SVE mode (R83, R102). Safe. -/
  | notStreaming
  /-- Raised by CheckSPAlignment when the base is SP (R87, R103). Safe. -/
  | spAlignmentFault
  /-- Raised by the read of an active element at an odd address, under `align_check` (R43, R105). Safe. -/
  | alignmentFault (address : Word64)
  /-- Raised by the read of an active element one of whose two bytes is not readable, with that byte's address (R41, R104).
  Safe: every cause real hardware has is folded into it (D13). -/
  | dataAbort (address : Word64)
  deriving DecidableEq, Repr

/-- Why the machine gives no meaning to a step. -/
inductive Refusal where
  /-- Raised by an arm of exec whose instruction has no meaning yet; no arm does so in this model. Safe. -/
  | notModelled (mnemonic : String)
  /-- Raised by step: the word at pc matches neither row of the opcode table (R67, R118, D1). Safe. -/
  | notInSpec (w : InsnWord)
  /-- Raised by step: pc is the address of no word of the text and not its end (R118, R124). Safe. -/
  | pcOutsideText
  /-- Raised by step: the run is final, pc is the end of the text (R118, R124; log 9). Safe: a final state has no next. -/
  | endOfProgram
  deriving DecidableEq, Repr

/-- The launch memory: the readable bytes, each with its value, by address (R27, R50). What an unlisted address reads as
is no value: it is not readable, and its read raises DataAbort (R41, R50; log 5). -/
abbrev Memory := List Host.Cell

/-- The state. `cfg`, `codeBase` and `text` are inputs of the run that no step changes (R28); `draws` is the model's own. -/
structure State where
  /-- The parameters of R5 that are constant for a run (log 1). -/
  cfg : Config
  /-- X0 to X30 (R20). -/
  x : Vector Word64 31
  /-- The stack pointer; the model has one (R21, D24). -/
  sp : Word64
  /-- The program counter: the byte address of the current instruction's word (R22). -/
  pc : Word64
  /-- Z0 to Z31, VL bits each (R23). -/
  z : Vector VecReg 32
  /-- P0 to P15, PL bits each; PN8 to PN15 are P8 to P15 read as counters (R24). -/
  p : Vector PredReg 16
  /-- PSTATE.SM: Streaming SVE mode is enabled (R25, R26). -/
  pstateSM : Bool
  /-- PSTATE.DIT: named by the source, governs timing only, read by no rule (R25, R123). -/
  pstateDIT : Bool
  /-- SME instructions are disabled or trapped (R26, D3). -/
  smeTrapped : Bool
  /-- SP alignment checking is enabled (R26, D8). -/
  spAlignCheck : Bool
  /-- The launch memory (R27, R50). -/
  mem : Memory
  /-- `code_base`: the address of the first word of the program text (R55, R124). -/
  codeBase : Word64
  /-- The program text, `w_0 .. w_(m-1)` (R55, R124). -/
  text : List InsnWord
  /-- The model's own: how many draws of `check_sp_none_active` the run has made, so that each is fresh (R87, log 3). -/
  draws : Nat
  deriving DecidableEq, Repr

/-- The state a run starts from when nothing is placed. The spec has no reset event and gives no value (R30, R120), and
every register must hold one: the configuration and control state have the defaults of R5 and the launch premises of R30
and R121, everything else is zero or empty (DESIGN CHOICE, log 1, 2, 5, 6, 7, 8, 28; unsafe). -/
def State.reset : State where
  cfg := Config.default
  x := Vector.replicate 31 0
  sp := 0
  pc := 0
  z := Vector.replicate 32 0
  p := Vector.replicate 16 0
  pstateSM := true
  pstateDIT := false
  smeTrapped := false
  spAlignCheck := true
  mem := []
  codeBase := 0
  text := []
  draws := 0

end Sys2Proof.Machine
end

