-- ==== Sys2Proof/Machine/Ops.lean ====
section
/-! DEFINITION. The named operations over memory, registers and the program text, and the raising of an exception. -/

namespace Sys2Proof.Machine

/-! ## Exceptions -/

/-- `raise` of the spec's pseudocode (R8): the instruction stops and the exception is the outcome of the step. The state
is the unchanged one before the instruction, no handler runs, and nothing returns (R107, R108, R109, D16; log 10). -/
def raise (e : Fault) : Host.Outcome State Fault Refusal := .fault e

/-! ## Memory (20_memory.md) -/

/-- The value of a byte, if the launch memory admits its read (R50). -/
def Memory.byteAt : Memory → Nat → Option Byte
  | [], _ => none
  | (k, b) :: rest, a => if k = a then some b else Memory.byteAt rest a

/-- The byte at a 64-bit address of the state's memory, if it is readable (R27, R40). -/
def State.byteAt (s : State) (a : Word64) : Option Byte := Memory.byteAt s.mem a.toNat

/-- `readable` of R5: the launch memory admits a read of this byte (R41, R50, D13). -/
def State.readable (s : State) (a : Word64) : Bool := (s.byteAt a).isSome

/-- Place a byte at an address, in the canonical order. No instruction writes memory (R52); this prepares a launch
(R125). -/
def Memory.place : Memory → Nat → Byte → Memory
  | [], a, v => [(a, v)]
  | (k, b) :: rest, a, v =>
    if a < k then (a, v) :: (k, b) :: rest
    else if a = k then (a, v) :: rest
    else (k, b) :: Memory.place rest a v

/-- Make a byte unreadable: the value an unlisted address reads as is none. It prepares a launch, as `place` does. -/
def Memory.unmap (m : Memory) (a : Nat) : Memory := m.filter (fun c => c.1 ≠ a)

/-- The canonical form: addresses strictly rising, each below 2^64. (An entry always holds a value and an unlisted
address never does, so no entry equals what an unlisted address reads as.) -/
abbrev Memory.wf (m : Memory) : Prop := m.Pairwise (fun c d => c.1 < d.1) ∧ ∀ c ∈ m, c.1 < 2 ^ 64

/-- The access descriptor of R45. Its fields are carried on every access and have no effect (R57, R58, D22, D30;
log 18; unsafe where hardware checks tags). -/
structure AccessDescriptor where
  /-- The access is a read (`MemOp_LOAD`). -/
  load : Bool
  nontemporal : Bool
  contiguous : Bool
  /-- The access is tag-checked: true unless the base is SP. -/
  tagchecked : Bool
  deriving DecidableEq, Repr

/-- A halfword from its byte at the lower address and its byte at the higher one (R42). -/
def halfOfBytes (bigEndian : Bool) (lower higher : Byte) : Half :=
  if bigEndian then lower ++ higher else higher ++ lower

/-- `MemRead(a, 2)`, the source's `Mem{16}(addr, accdesc)`: the alignment test, then the two bytes in the order `a`,
`a + 1`, then the byte order (R41, R42, R43). A read changes no state. -/
def memRead (s : State) (a : Word64) (_acc : AccessDescriptor) : Except Fault Half :=
  if s.cfg.alignCheck && a.getLsbD 0 then
    .error (.alignmentFault a)
  else
    match s.byteAt a with
    | none => .error (.dataAbort a)
    | some b0 =>
      match s.byteAt (a + 1) with
      | none => .error (.dataAbort (a + 1))
      | some b1 => .ok (halfOfBytes s.cfg.bigEndian b0 b1)

/-- `AddressAdd(base, i, accdesc)`: `(uint(base) + i) mod 2^64`, no fault, every address bit significant (R46, D10;
UNVERIFIED, log 15; unsafe). -/
def addressAdd (base : Word64) (i : Int) (_acc : AccessDescriptor) : Word64 := BitVec.ofInt 64 (base.toNat + i)

/-- `AddressIncrement(addr, m, accdesc)`: `(uint(addr) + m) mod 2^64` (R46, D10; UNVERIFIED, log 15; unsafe). -/
def addressIncrement (addr : Word64) (m : Nat) (_acc : AccessDescriptor) : Word64 := addr + BitVec.ofNat 64 m

/-! ## Registers (10_state.md) -/

/-- `X{64}(n)`: all 64 bits of Xn (R20). -/
def State.readX (s : State) (n : Fin 31) : Word64 := s.x[n]

/-- `Z{VL}(i)`: the value of Zi, held zero-extended (R23). The instruction itself reads no Z register. -/
def State.readZ (s : State) (i : Fin 32) : VecReg := s.z[i]

/-- `Z{VL}(i) = v`: the whole register is replaced (R23, R90, D9). -/
def State.writeZ (s : State) (i : Fin 32) (v : VecReg) : State := { s with z := s.z.set i v }

/-- `P{}(g)` (R24). -/
def State.readP (s : State) (g : Fin 16) : PredReg := s.p[g]

/-- `pc <- (pc + 4) mod 2^64` on completion (R22, R91, D15; UNVERIFIED, log 20). -/
def State.advancePc (s : State) : State := { s with pc := s.pc + 4 }

/-- The draw of this execution has been made: the next one is another (R87, log 3). -/
def State.takeDraw (s : State) : State := { s with draws := s.draws + 1 }

/-! ## The program text (R55, R124) -/

/-- Prepare a launch: the program text and its base address, with pc at its first word (R124). -/
def State.loadText (s : State) (base : Word64) (ws : List InsnWord) : State :=
  { s with codeBase := base, text := ws, pc := base }

/-- How far pc is past the base of the text, in bytes, modulo 2^64 (DESIGN CHOICE, log 29). -/
def State.pcOffset (s : State) : Nat := (s.pc - s.codeBase).toNat

/-- The word bound to pc, or why there is none: pc is the end of the text, where the run is final, or elsewhere
(R55, R118, R124). The text is not read through memRead and is not subject to `readable` (R55).

DESIGN CHOICE (log 29; unsafe in this one corner): R124 admits a text of 2^62 words at `code_base` 0, whose end `4m = 2^64`
is, modulo 2^64 (R22), the address 0 of its first word. The spec says both that the run is final at the end and that a step
fetches the word at pc, and does not say which holds there. The model fetches `w_0`, so such a run does not end after m
steps. With `4m < 2^64` no address is both, and there is nothing to choose. -/
def fetch (s : State) : Except Refusal InsnWord :=
  if s.pcOffset % 4 = 0 then
    match s.text[s.pcOffset / 4]? with
    | some w => .ok w
    | none => if s.pcOffset = 4 * s.text.length then .error .endOfProgram else .error .pcOutsideText
  else
    .error .pcOutsideText

/-- The decoder's refusal as the machine's (R67, D1). A fetched word has four bytes, so it is never truncated. -/
def refusalOf (w : InsnWord) : DecodeError → Refusal
  | .truncated => .notInSpec w
  | .notInSpec w' => .notInSpec w'

end Sys2Proof.Machine
end

