-- ==== Sys2Proof/Machine/Flags.lean ====
section
/-! DEFINITION. Process state. The instruction reads and writes no condition flag (R25, R92), so no flag is computed
here: what stands here is each check the instruction makes of the process and control state. -/

namespace Sys2Proof.Machine

/-- Step S0, `IsFeatureImplemented(FEAT_SME2)`: decode ends with Decode_UNDEF where the feature is absent, and executing
the word raises Undefined with that word (R67, R101, D2). -/
def checkFeature (s : State) (i : Instr) : Option Fault :=
  if s.cfg.featSme2 then none else some (.undefined (encode i))

/-- Step S1, `CheckStreamingSVEEnabled()`: the trap first, then the mode (R83, R102, D3; UNVERIFIED, log 13; unsafe). -/
def checkStreamingSVEEnabled (s : State) : Option Fault :=
  if s.smeTrapped then some .smeAccessTrap
  else if s.pstateSM then none
  else some .notStreaming

/-- `sp[3:0] != 0`: SP is no multiple of 16 (R87). -/
def spMisaligned (s : State) : Bool := s.sp.extractLsb' 0 4 != 0

/-- `CheckSPAlignment()` would raise: checking is enabled and SP is misaligned. It tests SP itself, not the start
address (R87, R103, D8; UNVERIFIED, log 14). -/
def spCheckFails (s : State) : Bool := s.spAlignCheck && spMisaligned s

end Sys2Proof.Machine
end

