-- ==== Sys2Proof/Machine/Predicate.lean ====
section
/-! DEFINITION. The governing predicate: the predicate-as-counter encoding, its mask, and the active elements (R85, R86). -/

namespace Sys2Proof.Machine

/-- `s`: the least i in 0..3 with `c[i] == 1`, when `c[3:0]` is not 0000 (R85). -/
def counterShift (c : Half) : Nat :=
  if c.getLsbD 0 then 0 else if c.getLsbD 1 then 1 else if c.getLsbD 2 then 2 else 3

/-- `psize = 2^s`: bytes per counted element (R85). -/
def counterSize (c : Half) : Nat := 2 ^ counterShift c

/-- `maxbit = log2(VL / 2)`: the highest bit of the count (R85). -/
def counterMaxbit (vl : VectorLength) : Nat := Nat.log2 (vl.bits / 2)

/-- `count = uint(c[maxbit : s+1])` (R85). The bits of c above maxbit and below bit 15 are ignored. -/
def counterCount (vl : VectorLength) (c : Half) : Nat :=
  (c.extractLsb' (counterShift c + 1) (counterMaxbit vl - counterShift c)).toNat

/-- `invert = (c[15] == 1)` (R85). -/
def counterInvert (c : Half) : Bool := c.getLsbD 15

/-- The mask bit at position b of the expansion over four vectors: set at the first byte of each active counted element,
j being the element's index (R85). -/
def counterBit (vl : VectorLength) (c : Half) (b : Nat) : Bool :=
  b % counterSize c == 0 && (decide (b / counterSize c < counterCount vl c) != counterInvert c)

/-- The recommended body of `counter_to_predicate(c, W)`: one mask bit per byte, made over four vectors and cut to W bits
(R85, D5). It is general knowledge, not in source (UNVERIFIED, log 11; unsafe). -/
def recommendedCounterToPredicate (vl : VectorLength) (c : Half) (w : Nat) : BitVec w :=
  if c.extractLsb' 0 4 = 0 then 0
  else (BitVec.ofFnLE fun b : Fin (vl.pl * 4) => counterBit vl c b.val).setWidth w

/-- `counter_to_predicate(c, W)`, the parameter of R5, behind this one name: the mask the configuration lists for this
counter and width, and where it lists none the recommended body, which is the default of R5 (R28, R85, D5; log 11, 31).
`counterTable` is the data of the configuration, so a claim can take any function here or state the property it needs. -/
def counterToPredicate (cfg : Config) (c : Half) (w : Nat) : BitVec w :=
  match cfg.counterTable.find? (fun e => e.counter == c && e.width == w) with
  | some e => e.mask.setWidth w
  | none => recommendedCounterToPredicate cfg.vl c w

/-- `ActivePredicateElement{W}(mask, k, esize)`: the lowest mask bit of the element's bytes (R86, D6; UNVERIFIED, log 12;
unsafe). -/
def activePredicateElement {w : Nat} (mask : BitVec w) (k esize : Nat) : Bool := mask.getLsbD (k * (esize / 8))

/-- `AnyActiveElement{W}(mask, esize)`: some element of that size is active (R86). -/
def anyActiveElement {w : Nat} (mask : BitVec w) (esize : Nat) : Bool :=
  (List.range (w / (esize / 8))).any fun k => activePredicateElement mask k esize

/-- Step S3: the mask of the governing predicate, `PL * nreg` bits from the low 16 bits of P(g) (R24, R85). -/
def governingMask (s : State) (g : Fin 16) (nreg : Nat) : BitVec (s.cfg.vl.pl * nreg) :=
  counterToPredicate s.cfg ((s.readP g).extractLsb' 0 16) (s.cfg.vl.pl * nreg)

end Sys2Proof.Machine
end

