-- ==== Sys2Proof/Machine/Operands.lean ====
section
/-! DEFINITION. Every operand form of the instruction: the base register, the immediate and the addresses it makes, the
destination list, and the value a destination receives. -/

namespace Sys2Proof.Machine

/-- `base = if n == 31 then SP{64}() else X{64}(n)`: all 64 bits (R20, R21, R88). -/
def baseValue (s : State) : Base → Word64
  | .x n => s.readX n
  | .sp => s.sp

/-- `CreateAccDescSVE(MemOp_LOAD, nontemporal, contiguous, tagchecked)` with `nontemporal = FALSE`, `contiguous = TRUE`,
`tagchecked = n != 31` (R45, R57, R58). -/
def accessDescriptor (b : Base) : AccessDescriptor :=
  { load := true, nontemporal := false, contiguous := true, tagchecked := decide (b.number ≠ 31) }

/-- The displacement, `offset * nreg * elements * mbytes = offset * nreg * (VL / 8)` bytes, an unbounded integer that does
not depend on the predicate (R10, R47, R88). -/
def displacement (vl : VectorLength) (nreg : Nat) (offset : Int) : Int := offset * nreg * vl.elements * 2

/-- Step S6, `addr0` (R47, R88). -/
def startAddress (s : State) (b : Base) (nreg : Nat) (offset : Int) : Word64 :=
  addressAdd (baseValue s b) (displacement s.cfg.vl nreg offset) (accessDescriptor b)

/-- `a_k = (addr0 + 2k) mod 2^64`: AddressIncrement runs once per element, active or not (R46, R47). -/
def elementAddress (addr0 : Word64) (k : Nat) (acc : AccessDescriptor) : Word64 := addressIncrement addr0 (2 * k) acc

/-- The number of the r-th destination, `t + r * tstride` (R90). For a well-formed instruction it is at most 31 (R63,
R64, R66); a term that no word decodes to wraps modulo 32 (DESIGN CHOICE, log 26; safe). -/
def destReg (t : Fin 32) (tstride r : Nat) : Fin 32 := Fin.ofNat 32 (t.val + r * tstride)

/-- The halfwords of a register as its value: element e is bits 16e+15 .. 16e (R6, R89). -/
def packHalves : List Half → VecReg
  | [] => 0
  | h :: rest => (packHalves rest <<< 16) ||| h.setWidth 2048

/-- `values[[r]]`: the r-th run of `elements` halfwords of those gathered (R47, R89). -/
def registerValue (elements : Nat) (values : List Half) (r : Nat) : VecReg :=
  packHalves ((values.drop (r * elements)).take elements)

/-- Step S8: position r of the list is written to `z[t + r*tstride]`, for r from 0 up (R90). -/
def writeDestinations (t : Fin 32) (tstride elements : Nat) (values : List Half) : Nat → State → State
  | 0, s => s
  | r + 1, s => (writeDestinations t tstride elements values r s).writeZ (destReg t tstride r) (registerValue elements values r)

end Sys2Proof.Machine
end

