-- ==== Sys2Proof/Machine/Ld1hStrided.lean ====
section
/-! DEFINITION. The meanings of LD1H (scalar plus immediate, strided registers): the procedure of 40_ld1h_strided.md R80,
steps S0 to S9, once, and the two instructions over it (R81, R82). -/

namespace Sys2Proof.Machine

/-- Halfword k of the register list is active: its mask bit is 1 (R85, R86). -/
def elementActive (i : Instr) (s : State) (k : Nat) : Bool := activePredicateElement (governingMask s i.pn i.nreg) k 16

/-- Step S4: some halfword is active (R86). -/
def anyActive (i : Instr) (s : State) : Bool := anyActiveElement (governingMask s i.pn i.nreg) 16

/-- `a_k`, the address of element k (R47). -/
def elementAddr (i : Instr) (s : State) (k : Nat) : Word64 :=
  elementAddress (startAddress s i.base i.nreg i.offset) k (accessDescriptor i.base)

/-- `nreg * elements`: how many halfwords the register list has (R44, R47). -/
def elementCount (i : Instr) (s : State) : Nat := i.nreg * s.cfg.vl.elements

/-- Step S5: the SP alignment check. With the base SP and some element active it is made; with none active it is made if
this execution's draw says so; with another base it is not made and nothing is drawn (R87, R103; log 3). -/
def spAlignmentStep (i : Instr) (s : State) : Option Fault :=
  match i.base with
  | .x _ => none
  | .sp =>
    if spCheckFails s then
      if anyActive i s then some .spAlignmentFault
      else if Config.drawCheckSp s.draws then some .spAlignmentFault
      else none
    else none

/-- A draw is consulted exactly when the base is SP and no element is active (R87). -/
def drawStep (i : Instr) (s : State) : State :=
  match i.base with
  | .x _ => s
  | .sp => if anyActive i s then s else s.takeDraw

/-- One element of step S7: an active element is read, an inactive one is sixteen zeros with no access (R48, R89). -/
def elementRead (i : Instr) (s : State) (k : Nat) : Except Fault Half :=
  if elementActive i s k then memRead s (elementAddr i s k) (accessDescriptor i.base) else .ok 0

/-- The fault of an element read, if it raised. -/
def readFault : Except Fault Half → Option Fault
  | .error e => some e
  | .ok _ => none

/-- The halfword of an element read that did not raise. -/
def readHalf : Except Fault Half → Half
  | .error _ => 0
  | .ok h => h

/-- The faults of the element reads that raise, in ascending k. -/
def elementFaults (i : Instr) (s : State) : List Fault :=
  (List.range (elementCount i s)).filterMap fun k => readFault (elementRead i s k)

/-- The halfwords gathered, in ascending k = r * elements + e (R47, R89). -/
def elementValues (i : Instr) (s : State) : List Half :=
  (List.range (elementCount i s)).map fun k => readHalf (elementRead i s k)

/-- Which fault is reported: that of any active element whose read raises (R49, R106, D18; free value, log 4). -/
def reportFault (s : State) (f : Fault) (others : List Fault) : Fault :=
  match others with
  | [] => f
  | _ :: _ => (f :: others).getD (Config.reportedFault s.draws % (others.length + 1)) f

/-- Step S7: every element is gathered, or a read raises and there is no value (R89, R94). -/
def loadElements (i : Instr) (s : State) : Except Fault (List Half) :=
  match elementFaults i s with
  | [] => .ok (elementValues i s)
  | f :: fs => .error (reportFault s f fs)

/-- The checks before the loads, in the order in which they are tested: S0, S1, S5 (R106). -/
def earlyFault (i : Instr) (s : State) : Option Fault :=
  ((checkFeature s i).or (checkStreamingSVEEnabled s)).or (spAlignmentStep i s)

/-- Steps S8 and S9: the destinations are written whole, after the last read, and pc advances (R90, R91). -/
def completeLoad (i : Instr) (s : State) (values : List Half) : State :=
  (writeDestinations i.zt1 i.tstride s.cfg.vl.elements values i.nreg (drawStep i s)).advancePc

/-- `LD1H_strided(nreg, tstride, t, n, g, offset)` (R80). A raise ends it with nothing written (R92, R94, R107). -/
def ld1hStrided (i : Instr) (s : State) : Host.Outcome State Fault Refusal :=
  match earlyFault i s with
  | some e => raise e
  | none =>
    match loadElements i s with
    | .error e => raise e
    | .ok values => .next (completeLoad i s values)

/-- LD1H, two registers (R81): `LD1H_strided(2, 8, t, n, g, offset)`. -/
def execLd1hTwo (zt1 : Fin 32) (pn : Fin 16) (base : Base) (offset : Int) (s : State) : Host.Outcome State Fault Refusal :=
  ld1hStrided (.ld1hTwo zt1 pn base offset) s

/-- LD1H, four registers (R82): `LD1H_strided(4, 4, t, n, g, offset)`. -/
def execLd1hFour (zt1 : Fin 32) (pn : Fin 16) (base : Base) (offset : Int) (s : State) : Host.Outcome State Fault Refusal :=
  ld1hStrided (.ld1hFour zt1 pn base offset) s

end Sys2Proof.Machine
end

