-- ==== Sys2Proof/Machine/Dispatch.lean ====
section
/-! DEFINITION. The dispatch: one arm per constructor of Instr, each one direct call of its meaning. -/

namespace Sys2Proof.Machine

def exec (i : Instr) (s : State) : Host.Outcome State Fault Refusal :=
  match i with
  | .ld1hTwo zt1 pn base offset => Sys2Proof.Machine.execLd1hTwo zt1 pn base offset s
  | .ld1hFour zt1 pn base offset => Sys2Proof.Machine.execLd1hFour zt1 pn base offset s

end Sys2Proof.Machine
end

