-- ==== Sys2Proof/Machine/Step.lean ====
section
/-! DEFINITION. One step of the machine: fetch, decode, execute (R118, R124). -/

namespace Sys2Proof.Machine

/-- Fetch the word at pc, decode it and execute it. A pc at the end of the text or outside it, and a word of neither row,
are refused by name (R67, R118, R124). -/
def step (s : State) : Host.Outcome State Fault Refusal :=
  match fetch s with
  | .error r => .refused r
  | .ok w =>
    match decode w with
    | .error e => .refused (refusalOf w e)
    | .ok i => exec i s

/-- The launch of a program of one word at the present pc: the text is a parameter of the run, loaded from outside the
machine (R28, R124; log 8). The bits of the word at `nbits` and above are 0. -/
def State.withFetchWord (s : State) (nbits w : Nat) : State :=
  { s with codeBase := s.pc, text := [tableWord nbits w] }

end Sys2Proof.Machine
end

