-- ==== Sys2Proof/Machine/Assembler.lean ====
section
/-! DEFINITION. Assembler lines, their words and their text (30_encoding.md R69 to R74). A line of the template is held
as what varies in it; the mnemonic, the suffix `.H` of each register, `/Z` and `MUL VL` are fixed tokens. -/

namespace Sys2Proof.Machine

/-- A line of the shape of R69 or R70: the numbers of the registers in the braces, the number of the predicate, the base,
and the immediate if it is written. -/
structure AsmLine where
  regs : List Nat
  pred : Nat
  base : Base
  imm : Option Int
  deriving DecidableEq, Repr

/-- The immediate, "defaulting to 0" (R65, R69). -/
def AsmLine.immediate (l : AsmLine) : Int := l.imm.getD 0

/-- The conditions of R71 that do not depend on the list: a predicate PN8 to PN15 (d), an immediate that is a multiple of
nreg in `-8*nreg .. 7*nreg` (f). -/
def AsmLine.operandsOk (l : AsmLine) (nreg : Nat) : Bool :=
  decide (8 ≤ l.pred ∧ l.pred ≤ 15 ∧ l.immediate % nreg = 0 ∧ -8 * nreg ≤ l.immediate ∧ l.immediate ≤ 7 * nreg)

/-- The word of a well-formed line, by the formulas of R72; none for a line that R71 gives no encoding. -/
def assemble (l : AsmLine) : Option InsnWord :=
  match l.regs with
  | [z1, z2] =>
    if l.operandsOk 2 && decide (z1 < 32 ∧ z1 % 16 < 8 ∧ z2 = z1 + 8) then
      some (BitVec.ofNat 32 (0xA1402000 ||| ((l.immediate / 2) % 16).toNat <<< 16 ||| (l.pred - 8) <<< 10
        ||| l.base.number <<< 5 ||| (z1 >>> 4) <<< 4 ||| (z1 &&& 7)))
    else none
  | [z1, z2, z3, z4] =>
    if l.operandsOk 4 && decide (z1 < 32 ∧ z1 % 16 < 4 ∧ z2 = z1 + 4 ∧ z3 = z1 + 8 ∧ z4 = z1 + 12) then
      some (BitVec.ofNat 32 (0xA140A000 ||| ((l.immediate / 4) % 16).toNat <<< 16 ||| (l.pred - 8) <<< 10
        ||| l.base.number <<< 5 ||| (z1 >>> 4) <<< 4 ||| (z1 &&& 3)))
    else none
  | _ => none

/-- The line of an instruction: the canonical print omits a zero offset (R73, C9, D26; DESIGN CHOICE, log 27). -/
def disassemble (i : Instr) : AsmLine :=
  { regs := (List.range i.nreg).map fun r => (destReg i.zt1 i.tstride r).val
    pred := i.pn.val
    base := i.base
    imm := if i.nreg * i.offset = 0 then none else some (i.nreg * i.offset) }

/-- The line of a word, where it is an instruction of this spec (R73). -/
def disassembleWord (w : InsnWord) : Option AsmLine :=
  match decode w with
  | .ok i => some (disassemble i)
  | .error _ => none

/-- The name of a base register (R69). -/
def baseName : Base → String
  | .x n => "X" ++ Nat.repr n.val
  | .sp => "SP"

/-- The text of a line, upper case as the source prints it (R69, R70, R73). Character 123 opens the register list and
character 125 closes it. -/
def AsmLine.render (l : AsmLine) : String :=
  "LD1H " ++ String.singleton (Char.ofNat 123) ++ " "
    ++ String.intercalate ", " (l.regs.map fun z => "Z" ++ Nat.repr z ++ ".H")
    ++ " " ++ String.singleton (Char.ofNat 125) ++ ", PN" ++ Nat.repr l.pred ++ "/Z, [" ++ baseName l.base
    ++ (match l.imm with
        | none => ""
        | some v => ", #" ++ toString v ++ ", MUL VL")
    ++ "]"

end Sys2Proof.Machine
end

