-- ==== Sys2Proof/Machine/Operation.lean ====
section
/-! DEFINITION. The source's Operation statement by statement, with its loops and its mutable variables, as R80 quotes
it. No instruction's meaning is made of it: it stands here so that the procedure the model runs can be held against it. -/

namespace Sys2Proof.Machine

/-- The mutable variables of the first loop: `addr` and the array `values` of four vectors (R80, C7). -/
structure LoopVars where
  addr : Word64
  values : Vector VecReg 4
  deriving DecidableEq, Repr

/-- `v[e*:16] = x`: bits 16e+15 .. 16e replaced (R7). -/
def sliceSet (v : VecReg) (e : Nat) (x : Half) : VecReg :=
  (v &&& ~~~(0xFFFF#2048 <<< (16 * e))) ||| (x.setWidth 2048 <<< (16 * e))

/-- One pass of the inner loop's body: the slice is set to what memory holds or to zeros, and the address is
incremented whether or not the element is active (R46, R80). -/
def elementBody (i : Instr) (s : State) (r : Nat) (v : LoopVars) (e : Nat) : Except Fault LoopVars := do
  let x ← if elementActive i s (r * s.cfg.vl.elements + e) then memRead s v.addr (accessDescriptor i.base) else .ok 0
  return { addr := addressIncrement v.addr 2 (accessDescriptor i.base)
           values := v.values.set (Fin.ofNat 4 r) (sliceSet v.values[Fin.ofNat 4 r] e x) }

/-- `for r = 0 to nreg-1 do for e = 0 to elements-1 do ... end; end;` (R80). -/
def gatherLoop (i : Instr) (s : State) (v : LoopVars) : Except Fault LoopVars :=
  (List.range i.nreg).foldlM (fun v r => (List.range s.cfg.vl.elements).foldlM (elementBody i s r) v) v

/-- `for r = 0 to nreg-1 do Z{VL}(transfer) = values[[r]]; transfer = transfer + tstride; end;`, the state and `transfer`
together (R80, R90). -/
def transferLoop (i : Instr) (values : Vector VecReg 4) (s : State) : State × Nat :=
  (List.range i.nreg).foldl
    (fun st r => (st.1.writeZ (Fin.ofNat 32 st.2) values[Fin.ofNat 4 r], st.2 + i.tstride)) (s, i.zt1.val)

/-- `CheckSPAlignment()` (R87). -/
def checkSPAlignment (s : State) : Option Fault := if spCheckFails s then some .spAlignmentFault else none

/-- A check of the Operation: it returns with no effect or raises. -/
def orRaise : Option Fault → Except Fault Unit
  | some e => .error e
  | none => .ok ()

/-- The Operation, with the decode test in front and the program counter behind (R80). Every bit of `values` below VL is
assigned before it is read (R89), so what it starts at is of no account: zeros. -/
def operation (i : Instr) (s : State) : Except Fault State := do
  orRaise (checkFeature s i)
  orRaise (checkStreamingSVEEnabled s)
  if anyActive i s then
    if i.base.number = 31 then orRaise (checkSPAlignment s)
  else
    if i.base.number = 31 && Config.drawCheckSp s.draws then orRaise (checkSPAlignment s)
  let addr := addressAdd (baseValue s i.base) (displacement s.cfg.vl i.nreg i.offset) (accessDescriptor i.base)
  let vars ← gatherLoop i s { addr := addr, values := Vector.replicate 4 0 }
  return (transferLoop i vars.values (drawStep i s)).1.advancePc

end Sys2Proof.Machine
end

