-- ==== Sys2Proof/Safety.lean ====
section
/-! DEFINITION. What a claim says of a run: the premises of a launch, a final state, the invariant of every state. -/

namespace Sys2Proof.Machine

/-- The three control premises of R121: the feature is there, SME is not trapped, Streaming SVE mode is on. -/
abbrev State.Enabled (s : State) : Prop := s.cfg.featSme2 = true ∧ s.smeTrapped = false ∧ s.pstateSM = true

/-- The premise of R121 for the base SP: the check is off, or SP is a multiple of 16. Needed even with no active element,
because of the draw. -/
abbrev SpUsable (i : Instr) (s : State) : Prop := i.base = .sp → s.spAlignCheck = true → s.sp.toNat % 16 = 0

/-- The premises of R121 on memory, for one element: both its bytes are readable, and its address is even where alignment
is checked. -/
abbrev ElementReadable (i : Instr) (s : State) (k : Nat) : Prop :=
  s.readable (elementAddr i s k) = true ∧ s.readable (elementAddr i s k + 1) = true ∧
    (s.cfg.alignCheck = true → (elementAddr i s k).getLsbD 0 = false)

/-- Every active element can be read (R121). -/
abbrev ActiveReadable (i : Instr) (s : State) : Prop :=
  ∀ k, k < elementCount i s → elementActive i s k = true → ElementReadable i s k

/-- The launch premises of R121 for an instruction to complete. -/
abbrev LaunchOk (i : Instr) (s : State) : Prop := s.Enabled ∧ SpUsable i s ∧ ActiveReadable i s

/-- The run is final: pc is the end of the text (R124), computed modulo 2^64. For the one text of 2^62 words at base 0 the
end is also the place of the first word, and there step fetches that word (DESIGN CHOICE, log 29). -/
abbrev State.isFinal (s : State) : Prop := s.pc = s.codeBase + BitVec.ofNat 64 (4 * s.text.length)

/-- The word w is the one bound to pc: pc is `code_base + 4k` and w is `w_k` (R55, R124). -/
abbrev State.WordAtPc (s : State) (w : InsnWord) : Prop :=
  ∃ k, s.pc = s.codeBase + BitVec.ofNat 64 (4 * k) ∧ 4 * k < 2 ^ 64 ∧ s.text[k]? = some w

/-- How many draws a completed execution leaves: one more where the base is SP and no element is active (R87, log 3). -/
def drawsAfter (i : Instr) (s : State) : Nat := if i.base = .sp ∧ anyActive i s = false then s.draws + 1 else s.draws

/-- The outcome with its next state changed, if it has one: to compare two executions. -/
def mapNext (f : State → State) : Host.Outcome State Fault Refusal → Host.Outcome State Fault Refusal
  | .next t => .next (f t)
  | .fault e => .fault e
  | .refused r => .refused r

/-- What holds of every state of a run: memory in its canonical form; pc and the base of the text multiples of 4, the text
within the address space (R22, R124); every Z register a value of VL bits and every P register one of PL bits (R23,
R24, D9). -/
abbrev State.Inv (s : State) : Prop :=
  Memory.wf s.mem ∧ s.pc.toNat % 4 = 0 ∧ s.codeBase.toNat % 4 = 0 ∧ s.codeBase.toNat + 4 * s.text.length ≤ 2 ^ 64 ∧
    (∀ n : Fin 32, (s.readZ n).toNat < 2 ^ s.cfg.vl.bits) ∧ (∀ g : Fin 16, (s.readP g).toNat < 2 ^ s.cfg.vl.pl)

end Sys2Proof.Machine
end

