-- ==== Sys2Proof/Certificates/Slice0/Obligations.lean ====
section
/-! DEFINITION. The statements for the provers, each with the rule of spec/ it comes from. -/

open Sys2Proof Sys2Proof.Machine

/-! ## Fetch, decode, encode -/

/-- R124: "A step fetches the word at `pc`, decodes it by `30_encoding.md` rule R67 and executes it". Nothing is done around
the execution: pc is advanced by the instruction itself. -/
def Obligations.StepRunsDecodedInstruction : Prop :=
  ∀ (s : State) (w : InsnWord) (i : Instr), s.WordAtPc w → decode w = .ok i → i.WellFormed ∧ step s = exec i s

/-- R67, its three cases for the word at pc: a word of either row on a machine without the feature, the same with it, and a
word of neither row. -/
def Obligations.DecodeOutcomeOfEveryWord : Prop :=
  ∀ (s : State) (w : InsnWord), s.WordAtPc w →
    let inTable := w &&& 0xFFF0E008#32 = 0xA1402000#32 ∨ w &&& 0xFFF0E00C#32 = 0xA140A000#32
    (inTable → s.cfg.featSme2 = false → step s = .fault (.undefined w)) ∧
    (inTable → s.cfg.featSme2 = true → ∃ i, decode w = .ok i ∧ i.WellFormed ∧ step s = exec i s) ∧
    (¬ inTable → decode w = .error (.notInSpec w) ∧ step s = .refused (.notInSpec w))

/-- R124 and R118: where the text ends the run is final, and no other pc outside the text has a word. That a final state is
answered as a refusal is the model's choice (log 9). The premise on the length leaves out the one text whose end is also the
place of its first word, where the model chose to fetch (log 29). -/
def Obligations.StepStopsAtEndAndOutsideText : Prop :=
  ∀ s : State,
    (4 * s.text.length < 2 ^ 64 → s.isFinal → step s = .refused .endOfProgram) ∧
    ((∀ k, k ≤ s.text.length → s.pc ≠ s.codeBase + BitVec.ofNat 64 (4 * k)) → step s = .refused .pcOutsideText)

/-- 30_encoding.md R61 to R65: the decoder gives back every well-formed instruction from its word, with every operand. -/
def Obligations.DecodeOfEncode : Prop :=
  ∀ i : Instr, i.WellFormed → decode (encode i) = .ok i

/-- 30_encoding.md R66: no field value is reserved and each word has one meaning, so a decoded word is the word of its
instruction. -/
def Obligations.EncodeOfDecode : Prop :=
  ∀ (w : InsnWord) (i : Instr), decode w = .ok i → i.WellFormed ∧ encode i = w

/-- R63: the operands of a word of the format LD1H_2, its destinations, and its feature test. -/
def Obligations.DecodeFieldsTwo : Prop :=
  ∀ w : InsnWord, w &&& 0xFFF0E008#32 = 0xA1402000#32 →
    ∃ i, decode w = .ok i ∧ i.nreg = 2 ∧ i.tstride = 8 ∧
      i.base.number = (w.extractLsb' 5 5).toNat ∧
      i.pn.val = 8 + (w.extractLsb' 10 3).toNat ∧
      i.zt1.val = 16 * (w.extractLsb' 4 1).toNat + (w.extractLsb' 0 3).toNat ∧
      (i.zt1.val ≤ 7 ∨ 16 ≤ i.zt1.val ∧ i.zt1.val ≤ 23) ∧
      i.offset = (w.extractLsb' 16 4).toInt ∧
      (destReg i.zt1 i.tstride 0).val = i.zt1.val ∧ (destReg i.zt1 i.tstride 1).val = i.zt1.val + 8 ∧
      ∀ s : State, s.cfg.featSme2 = false → exec i s = .fault (.undefined w)

/-- R64: the operands of a word of the format LD1H_4, its destinations, and its feature test. -/
def Obligations.DecodeFieldsFour : Prop :=
  ∀ w : InsnWord, w &&& 0xFFF0E00C#32 = 0xA140A000#32 →
    ∃ i, decode w = .ok i ∧ i.nreg = 4 ∧ i.tstride = 4 ∧
      i.base.number = (w.extractLsb' 5 5).toNat ∧
      i.pn.val = 8 + (w.extractLsb' 10 3).toNat ∧
      i.zt1.val = 16 * (w.extractLsb' 4 1).toNat + (w.extractLsb' 0 2).toNat ∧
      (i.zt1.val ≤ 3 ∨ 16 ≤ i.zt1.val ∧ i.zt1.val ≤ 19) ∧
      i.offset = (w.extractLsb' 16 4).toInt ∧
      (destReg i.zt1 i.tstride 0).val = i.zt1.val ∧ (destReg i.zt1 i.tstride 1).val = i.zt1.val + 4 ∧
      (destReg i.zt1 i.tstride 2).val = i.zt1.val + 8 ∧ (destReg i.zt1 i.tstride 3).val = i.zt1.val + 12 ∧
      ∀ s : State, s.cfg.featSme2 = false → exec i s = .fault (.undefined w)

/-- Words written out bit by bit from the diagrams of R61 and R62: E1, E4, E5 of the first form, E10, E11, E12 of the
second, and X1 and X2, which are neither. -/
def Obligations.DecodeOfHandWrittenWords : Prop :=
  decode 0b10100001010000000010000000000000#32 = .ok (.ld1hTwo 0 8 (.x 0) 0) ∧
  decode 0b10100001010001110011111111010111#32 = .ok (.ld1hTwo 23 15 (.x 30) 7) ∧
  decode 0b10100001010011110010111111100101#32 = .ok (.ld1hTwo 5 11 .sp (-1)) ∧
  decode 0b10100001010000001010000000000000#32 = .ok (.ld1hFour 0 8 (.x 0) 0) ∧
  decode 0b10100001010011111010011111100001#32 = .ok (.ld1hFour 1 9 .sp (-1)) ∧
  decode 0b10100001010001111011111111010011#32 = .ok (.ld1hFour 19 15 (.x 30) 7) ∧
  decode 0b10100001010000000010000000001000#32 = .error (.notInSpec 0xA1402008#32) ∧
  decode 0b10100001010000001010000000000100#32 = .error (.notInSpec 0xA140A004#32)

/-! ## The assembler -/

/-- R65: the field imm4 is the offset in two's complement; the assembler's immediate is nreg times the offset, between -8
and 7 times nreg, absent when it is 0; `MUL VL` stands for the remaining factor VL/8. -/
def Obligations.ImmediateIsOffsetTimesListLength : Prop :=
  ∀ i : Instr, i.WellFormed →
    ((encode i).extractLsb' 16 4).toInt = i.offset ∧
    (disassemble i).immediate = i.nreg * i.offset ∧
    -8 * (i.nreg : Int) ≤ (disassemble i).immediate ∧ (disassemble i).immediate ≤ 7 * (i.nreg : Int) ∧
    (((encode i).extractLsb' 16 4).toNat : Int) = (disassemble i).immediate / i.nreg % 16 ∧
    (∀ l : AsmLine, l.imm = none → l.immediate = 0) ∧
    ∀ vl : VectorLength, displacement vl i.nreg i.offset = (disassemble i).immediate * vl.pl

/-- 30_encoding.md section 5: assembling by the formulas of R72 the line that R73 prints gives the word of the diagrams. The
line's form with the zero offset omitted is the spec's decision D26 (log 27). -/
def Obligations.AssembleOfDisassemble : Prop :=
  ∀ i : Instr, i.WellFormed → assemble (disassemble i) = some (encode i)

/-- 30_encoding.md section 5: a line has an encoding exactly when it is the line of a well-formed instruction, with its
immediate written or, where it is 0, left out. -/
def Obligations.AssembleExactlyWellFormedLines : Prop :=
  ∀ (l : AsmLine) (w : InsnWord), assemble l = some w ↔
    ∃ i : Instr, i.WellFormed ∧ encode i = w ∧ l.regs = (disassemble i).regs ∧ l.pred = i.pn.val ∧ l.base = i.base ∧
      l.immediate = i.nreg * i.offset

/-! ## The checks before the load -/

/-- R101: without the feature every word of the two rows raises Undefined, whatever the operands and the state. -/
def Obligations.UndefinedWithoutFeature : Prop :=
  ∀ (i : Instr) (s : State), s.cfg.featSme2 = false → exec i s = .fault (.undefined (encode i))

/-- R102: with the feature, a trapped SME access raises SMEAccessTrap, and an untrapped one outside Streaming SVE mode
raises NotStreaming, whatever the operands, the registers and the memory. -/
def Obligations.TrapThenStreamingMode : Prop :=
  ∀ (i : Instr) (s : State), s.cfg.featSme2 = true →
    (s.smeTrapped = true → exec i s = .fault .smeAccessTrap) ∧
    (s.smeTrapped = false → s.pstateSM = false → exec i s = .fault .notStreaming)

/-- R103: SPAlignmentFault is raised exactly with the base SP, checking enabled, SP no multiple of 16, and either some
element active or the draw of this execution saying so. The draw is a free value (log 3): this holds whatever it is. -/
def Obligations.SpAlignmentFaultExactly : Prop :=
  ∀ (i : Instr) (s : State), s.Enabled →
    (exec i s = .fault .spAlignmentFault ↔
      i.base = .sp ∧ s.spAlignCheck = true ∧ s.sp.toNat % 16 ≠ 0 ∧
        ((∃ k, k < elementCount i s ∧ elementActive i s k = true) ∨ Config.drawCheckSp s.draws = true))

/-- 60_exceptions.md section 1 and 40_ld1h_strided.md section 3: an instruction completes exactly when every check passes
and every active element can be read. The draw is a free value (log 3). -/
def Obligations.CompletesExactlyWhen : Prop :=
  ∀ (i : Instr) (s : State),
    (∃ t, exec i s = .next t) ↔
      s.Enabled ∧ ActiveReadable i s ∧
        ¬ (i.base = .sp ∧ s.spAlignCheck = true ∧ s.sp.toNat % 16 ≠ 0 ∧
          (anyActive i s = true ∨ Config.drawCheckSp s.draws = true))

/-- 30_encoding.md R66 and 60_exceptions.md R118: the meanings refuse nothing. -/
def Obligations.NoInstructionIsRefused : Prop :=
  ∀ (i : Instr) (s : State) (r : Refusal), exec i s ≠ .refused r

/-! ## What a completed load does -/

/-- 40_ld1h_strided.md R81, the closed form: under the launch premises of R121 the two-register form completes; halfword e
of `z[t + 8r]` is what memory holds at `a_k` where the mask bit is 1 and 0 where it is 0; the registers keep VL bits; pc
advances by 4; nothing else changes (but the model's own count of draws). -/
def Obligations.LoadTwoCompletes : Prop :=
  ∀ (zt1 : Fin 32) (pn : Fin 16) (base : Base) (offset : Int) (s : State),
    (Instr.ld1hTwo zt1 pn base offset).WellFormed → LaunchOk (.ld1hTwo zt1 pn base offset) s →
    ∃ t, exec (.ld1hTwo zt1 pn base offset) s = .next t ∧
      (∀ (r e : Nat) (n : Fin 32), r < 2 → e < s.cfg.vl.elements → n.val = zt1.val + 8 * r →
        let k := r * s.cfg.vl.elements + e
        let a := BitVec.ofInt 64 ((baseValue s base).toNat + offset * 2 * s.cfg.vl.pl + 2 * k)
        let h := (t.readZ n).extractLsb' (16 * e) 16
        if (counterToPredicate s.cfg ((s.readP pn).extractLsb' 0 16) (s.cfg.vl.pl * 2)).getLsbD (2 * k) = true then
          ∃ b0 b1, s.byteAt a = some b0 ∧ s.byteAt (a + 1) = some b1 ∧ h = if s.cfg.bigEndian then b0 ++ b1 else b1 ++ b0
        else h = 0) ∧
      (∀ n : Fin 32, n.val = zt1.val ∨ n.val = zt1.val + 8 → (t.readZ n).toNat < 2 ^ s.cfg.vl.bits) ∧
      (∀ n : Fin 32, n.val ≠ zt1.val → n.val ≠ zt1.val + 8 → t.readZ n = s.readZ n) ∧
      t = { s with z := t.z, pc := s.pc + 4, draws := drawsAfter (.ld1hTwo zt1 pn base offset) s }

/-- 40_ld1h_strided.md R82, the closed form: the same for the four-register form, with `z[t + 4r]`. -/
def Obligations.LoadFourCompletes : Prop :=
  ∀ (zt1 : Fin 32) (pn : Fin 16) (base : Base) (offset : Int) (s : State),
    (Instr.ld1hFour zt1 pn base offset).WellFormed → LaunchOk (.ld1hFour zt1 pn base offset) s →
    ∃ t, exec (.ld1hFour zt1 pn base offset) s = .next t ∧
      (∀ (r e : Nat) (n : Fin 32), r < 4 → e < s.cfg.vl.elements → n.val = zt1.val + 4 * r →
        let k := r * s.cfg.vl.elements + e
        let a := BitVec.ofInt 64 ((baseValue s base).toNat + offset * 4 * s.cfg.vl.pl + 2 * k)
        let h := (t.readZ n).extractLsb' (16 * e) 16
        if (counterToPredicate s.cfg ((s.readP pn).extractLsb' 0 16) (s.cfg.vl.pl * 4)).getLsbD (2 * k) = true then
          ∃ b0 b1, s.byteAt a = some b0 ∧ s.byteAt (a + 1) = some b1 ∧ h = if s.cfg.bigEndian then b0 ++ b1 else b1 ++ b0
        else h = 0) ∧
      (∀ (n : Fin 32) (r : Nat), r < 4 → n.val = zt1.val + 4 * r → (t.readZ n).toNat < 2 ^ s.cfg.vl.bits) ∧
      (∀ n : Fin 32, (∀ r, r < 4 → n.val ≠ zt1.val + 4 * r) → t.readZ n = s.readZ n) ∧
      t = { s with z := t.z, pc := s.pc + 4, draws := drawsAfter (.ld1hFour zt1 pn base offset) s }

/-- 10_state.md section 11 and 40_ld1h_strided.md R92, for both forms: a completed load leaves every X register, SP, every P
register, the process and control state, the configuration, the text, every Z register that is no destination and every
byte of memory as they were. -/
def Obligations.FrameOfLoad : Prop :=
  ∀ (i : Instr) (s t : State), exec i s = .next t →
    (∀ n, t.readX n = s.readX n) ∧ t.sp = s.sp ∧ (∀ g, t.readP g = s.readP g) ∧
    (∀ n : Fin 32, (∀ r, r < i.nreg → n ≠ destReg i.zt1 i.tstride r) → t.readZ n = s.readZ n) ∧
    t.pstateSM = s.pstateSM ∧ t.pstateDIT = s.pstateDIT ∧ t.smeTrapped = s.smeTrapped ∧ t.spAlignCheck = s.spAlignCheck ∧
    t.cfg = s.cfg ∧ t.codeBase = s.codeBase ∧ t.text = s.text ∧
    t.draws = drawsAfter i s ∧
    ∀ a, t.byteAt a = s.byteAt a

/-- 40_ld1h_strided.md R87 and the first row of R93: with no active element memory is not looked at. The instruction raises
SPAlignmentFault where the base is a misaligned SP, checking is enabled and the draw says so, and otherwise completes with
zeros in every destination. The draw is a free value (log 3). -/
def Obligations.NoActiveElementWritesZeros : Prop :=
  ∀ (i : Instr) (s : State), s.Enabled → (∀ k, k < elementCount i s → elementActive i s k = false) →
    if i.base = .sp ∧ s.spAlignCheck = true ∧ s.sp.toNat % 16 ≠ 0 ∧ Config.drawCheckSp s.draws = true then
      exec i s = .fault .spAlignmentFault
    else
      ∃ t, exec i s = .next t ∧ (∀ r, r < i.nreg → t.readZ (destReg i.zt1 i.tstride r) = 0) ∧
        t = { s with z := t.z, pc := s.pc + 4, draws := drawsAfter i s }

/-! ## The predicate -/

/-- 40_ld1h_strided.md section 3, the table of step S3: which halfwords are active for each of the five kinds of counter, and
where the count ends. It is said of the recommended body, for every configuration that lists no mask of its own for this
counter and width. That body is the spec's decision D5, from general knowledge (log 11, 12). -/
def Obligations.CounterActiveElements : Prop :=
  ∀ (cfg : Config) (c : Half) (w k : Nat), 2 * k < w → w ≤ cfg.vl.pl * 4 →
    (∀ e ∈ cfg.counterTable, e.counter = c → e.width ≠ w) →
    let maxbit := counterMaxbit cfg.vl
    2 ^ (maxbit + 1) = cfg.vl.bits ∧
    activePredicateElement (counterToPredicate cfg c w) k 16 =
      if c.extractLsb' 0 4 = 0 then false
      else if c.getLsbD 0 then decide (2 * k < (c.extractLsb' 1 maxbit).toNat) != c.getLsbD 15
      else if c.getLsbD 1 then decide (k < (c.extractLsb' 2 (maxbit - 1)).toNat) != c.getLsbD 15
      else if c.getLsbD 2 then
        k % 2 == 0 && (decide (k / 2 < (c.extractLsb' 3 (maxbit - 2)).toNat) != c.getLsbD 15)
      else k % 4 == 0 && (decide (k / 4 < (c.extractLsb' 4 (maxbit - 3)).toNat) != c.getLsbD 15)

/-- 00_scope.md section 4 and D5: `counter_to_predicate` is a field of the configuration, and any total function from a
16-bit counter and the widths PL*2 and PL*4 can stand there. That it is held as a table of exceptions to the recommended
body is the model's choice (log 31). -/
def Obligations.CounterToPredicateIsAnyFunction : Prop :=
  ∀ (cfg : Config) (f : Half → (w : Nat) → BitVec w), ∃ table : List CounterEntry,
    ∀ (c : Half) (w : Nat), w = cfg.vl.pl * 2 ∨ w = cfg.vl.pl * 4 →
      counterToPredicate { cfg with counterTable := table } c w = f c w

/-- 10_state.md section 4: two values of the governing predicate that agree in their low 16 bits give the same result, and
no other predicate register matters. -/
def Obligations.OnlyLowSixteenPredicateBits : Prop :=
  ∀ (i : Instr) (s : State) (p' : Vector PredReg 16),
    (p'[i.pn]).extractLsb' 0 16 = (s.readP i.pn).extractLsb' 0 16 →
    exec i { s with p := p' } = mapNext (fun t => { t with p := p' }) (exec i s)

/-! ## What the load depends on -/

/-- R48: the two bytes of an inactive element have no effect, whatever they are and whether or not they can be read: two
memories that agree on the bytes of the active elements give the same outcome. An inactive element is zero in its
destination. No inactive element raises: past the checks before the loop, every fault but that of the SP check is the fault
of an active element's read; and what completes an instruction is asked of the active elements alone, so an inactive element
may be unreadable, or at an odd address under `align_check`. The checks before the loop can raise even when every element is
inactive. -/
def Obligations.InactiveElementsNeverAccessed : Prop :=
  (∀ (i : Instr) (s : State) (m : Memory),
    (∀ k, k < elementCount i s → elementActive i s k = true →
      ({ s with mem := m } : State).byteAt (elementAddr i s k) = s.byteAt (elementAddr i s k) ∧
      ({ s with mem := m } : State).byteAt (elementAddr i s k + 1) = s.byteAt (elementAddr i s k + 1)) →
    exec i { s with mem := m } = mapNext (fun t => { t with mem := m }) (exec i s)) ∧
  (∀ (i : Instr) (s t : State) (r e : Nat), i.WellFormed → exec i s = .next t → r < i.nreg → e < s.cfg.vl.elements →
    elementActive i s (r * s.cfg.vl.elements + e) = false →
    (t.readZ (destReg i.zt1 i.tstride r)).extractLsb' (16 * e) 16 = 0 ∧ t.mem = s.mem) ∧
  (∀ (i : Instr) (s : State) (f : Fault), s.Enabled → exec i s = .fault f → f = .spAlignmentFault ∨
    ∃ k, k < elementCount i s ∧ elementActive i s k = true ∧
      memRead s (elementAddr i s k) (accessDescriptor i.base) = .error f) ∧
  (∀ (i : Instr) (s : State), s.Enabled → SpUsable i s →
    (∀ k, k < elementCount i s → elementActive i s k = true → ElementReadable i s k) → ∃ t, exec i s = .next t) ∧
  (∀ (i : Instr) (s : State), (∀ k, k < elementCount i s → elementActive i s k = false) → s.cfg.featSme2 = true →
    s.smeTrapped = true → exec i s = .fault .smeAccessTrap)

/-- 10_state.md section 3: the old values of the Z registers have no influence on the new values of the destinations. -/
def Obligations.OldDestinationsIgnored : Prop :=
  ∀ (i : Instr) (s t : State) (z' : Vector VecReg 32), exec i s = .next t →
    ∃ t', exec i { s with z := z' } = .next t' ∧
      ∀ r, r < i.nreg → t'.readZ (destReg i.zt1 i.tstride r) = t.readZ (destReg i.zt1 i.tstride r)

/-- 10_state.md section 11: with the base Xn no other X register and not SP is read, and with the base SP no X register. -/
def Obligations.OnlyBaseRegisterRead : Prop :=
  ∀ (i : Instr) (s : State) (x' : Vector Word64 31) (sp' : Word64),
    (∀ n, i.base = .x n → x'[n] = s.readX n →
      exec i { s with x := x', sp := sp' } = mapNext (fun t => { t with x := x', sp := sp' }) (exec i s)) ∧
    (i.base = .sp → exec i { s with x := x' } = mapNext (fun t => { t with x := x' }) (exec i s))

/-- 40_ld1h_strided.md R95: the draw influences whether the instruction completes and not what it leaves. -/
def Obligations.DrawDoesNotInfluenceCompletion : Prop :=
  ∀ (i : Instr) (s t t' : State) (d : Nat), exec i s = .next t → exec i { s with draws := d } = .next t' →
    t' = { t with draws := t'.draws }

/-! ## Faults of the element reads -/

/-- 20_memory.md section 6, the reported fault: where the checks pass and some active element's read raises, the outcome is
the fault of an active element whose read raises. Which one is a free value (log 4): this holds whatever it is. -/
def Obligations.ReportedFaultIsAnActiveElements : Prop :=
  ∀ (i : Instr) (s : State), s.Enabled → SpUsable i s →
    (∃ k f, k < elementCount i s ∧ elementActive i s k = true ∧
      memRead s (elementAddr i s k) (accessDescriptor i.base) = .error f) →
    ∃ k f, k < elementCount i s ∧ elementActive i s k = true ∧
      memRead s (elementAddr i s k) (accessDescriptor i.base) = .error f ∧ exec i s = .fault f

/-- R104: DataAbort is raised only by an active element one of whose bytes is not readable, and records that byte's
address; and it is raised where the checks pass, alignment is not checked and some active element has such a byte. -/
def Obligations.DataAbortNamesUnreadableByte : Prop :=
  ∀ (i : Instr) (s : State),
    (∀ a, exec i s = .fault (.dataAbort a) →
      s.readable a = false ∧ ∃ k, k < elementCount i s ∧ elementActive i s k = true ∧
        (a = elementAddr i s k ∨ a = elementAddr i s k + 1 ∧ s.readable (elementAddr i s k) = true)) ∧
    (s.Enabled → SpUsable i s → s.cfg.alignCheck = false →
      (∃ k, k < elementCount i s ∧ elementActive i s k = true ∧
        (s.readable (elementAddr i s k) = false ∨ s.readable (elementAddr i s k + 1) = false)) →
      ∃ a, exec i s = .fault (.dataAbort a))

/-- R105: AlignmentFault occurs only under `align_check`, for an active element at an odd address, which it records; and
there it is raised where the checks pass. -/
def Obligations.AlignmentFaultExactly : Prop :=
  ∀ (i : Instr) (s : State),
    (∀ a, exec i s = .fault (.alignmentFault a) →
      s.cfg.alignCheck = true ∧ a.getLsbD 0 = true ∧
        ∃ k, k < elementCount i s ∧ elementActive i s k = true ∧ a = elementAddr i s k) ∧
    (s.Enabled → SpUsable i s → s.cfg.alignCheck = true →
      (∃ k, k < elementCount i s ∧ elementActive i s k = true ∧ (elementAddr i s k).getLsbD 0 = true) →
      ∃ a, exec i s = .fault (.alignmentFault a))

/-! ## Memory and addresses -/

/-- R41, the whole body of `MemRead(a, 2)`. -/
def Obligations.MemReadCases : Prop :=
  ∀ (s : State) (a : Word64) (acc : AccessDescriptor),
    (s.cfg.alignCheck = true → a.getLsbD 0 = true → memRead s a acc = .error (.alignmentFault a)) ∧
    ((s.cfg.alignCheck = false ∨ a.getLsbD 0 = false) →
      (s.readable a = false → memRead s a acc = .error (.dataAbort a)) ∧
      (s.readable a = true → s.readable (a + 1) = false → memRead s a acc = .error (.dataAbort (a + 1))) ∧
      ∀ b0 b1, s.byteAt a = some b0 → s.byteAt (a + 1) = some b1 →
        memRead s a acc = .ok (if s.cfg.bigEndian then b0 ++ b1 else b1 ++ b0))

/-- 20_memory.md section 6, the addresses of one execution, as integers modulo 2^64; element k+1 is one AddressIncrement
past element k. -/
def Obligations.ElementAddresses : Prop :=
  ∀ (i : Instr) (s : State) (k : Nat),
    ((elementAddr i s k).toNat : Int) =
      ((baseValue s i.base).toNat + i.offset * i.nreg * (s.cfg.vl.bits / 8 : Nat) + 2 * k) % 2 ^ 64 ∧
    elementAddr i s (k + 1) = addressIncrement (elementAddr i s k) 2 (accessDescriptor i.base)

/-- 00_scope.md section 6.4: the range of the displacement. -/
def Obligations.DisplacementRange : Prop :=
  ∀ (i : Instr) (vl : VectorLength), i.WellFormed →
    -2048 * (i.nreg : Int) ≤ displacement vl i.nreg i.offset ∧ displacement vl i.nreg i.offset ≤ 1792 * (i.nreg : Int)

/-- R45: the access descriptor, and that none of its fields has an effect. -/
def Obligations.AccessDescriptorWithoutEffect : Prop :=
  (∀ b : Base, accessDescriptor b =
    { load := true, nontemporal := false, contiguous := true, tagchecked := decide (b.number ≠ 31) }) ∧
  ∀ (s : State) (a : Word64) (d : Int) (m : Nat) (acc acc' : AccessDescriptor),
    memRead s a acc = memRead s a acc' ∧ addressAdd a d acc = addressAdd a d acc' ∧
      addressIncrement a m acc = addressIncrement a m acc'

/-- 20_memory.md section 3: with the other byte order the same load completes with the two bytes of every halfword of the
destinations exchanged, and nothing exchanged across elements. Nothing else differs: no other bit of a destination, no other
Z register, and no other field of the state but the byte order itself. -/
def Obligations.BigEndianSwapsWithinHalfwords : Prop :=
  ∀ (i : Instr) (s t : State), exec i s = .next t →
    ∃ t', exec i { s with cfg := { s.cfg with bigEndian := !s.cfg.bigEndian } } = .next t' ∧
      (∀ r e, r < i.nreg → e < s.cfg.vl.elements →
        let h := (t.readZ (destReg i.zt1 i.tstride r)).extractLsb' (16 * e) 16
        (t'.readZ (destReg i.zt1 i.tstride r)).extractLsb' (16 * e) 16 = h.extractLsb' 0 8 ++ h.extractLsb' 8 8) ∧
      (∀ (n : Fin 32) (b : Nat), s.cfg.vl.bits ≤ b → (t'.readZ n).getLsbD b = (t.readZ n).getLsbD b) ∧
      (∀ n : Fin 32, (∀ r, r < i.nreg → n ≠ destReg i.zt1 i.tstride r) → t'.readZ n = t.readZ n) ∧
      t' = { t with z := t'.z, cfg := { t.cfg with bigEndian := !t.cfg.bigEndian } }

/-! ## The machine as a whole -/

/-- The invariant holds after reset. The reset values are the model's choice (log 1, 2, 5 to 8). -/
def Obligations.ResetMeetsInvariant : Prop := State.reset.Inv

/-- Every step keeps the invariant: memory in its canonical form, pc and the base of the text aligned (R22), the text within
the address space (R124), every Z register of VL bits and every P register of PL bits (R23, R24; log 19). -/
def Obligations.StepKeepsInvariant : Prop :=
  ∀ s t : State, s.Inv → step s = .next t → t.Inv

/-- R52: over any number of steps memory does not change, every byte reads as it did at the launch, and the instructions
are executed in program order. -/
def Obligations.RunKeepsMemoryInProgramOrder : Prop :=
  ∀ (k : Nat) (s t : State), Host.Core.run Sys2Proof.core k s = .next t →
    t.mem = s.mem ∧ (∀ a, t.byteAt a = s.byteAt a) ∧ t.pc = s.pc + BitVec.ofNat 64 (4 * k) ∧
    t.text = s.text ∧ t.codeBase = s.codeBase ∧ t.cfg = s.cfg

/-- 70_reset_and_hazards.md section 5: a run of a program of m words takes at most m steps, from wherever it starts; there
is no loop and no hang. -/
def Obligations.RunLengthBounded : Prop :=
  ∀ (k : Nat) (s t : State), 4 * s.text.length < 2 ^ 64 → Host.Core.run Sys2Proof.core k s = .next t → k ≤ s.text.length

/-- 40_ld1h_strided.md section 1: the source's Operation, statement by statement with its loops, completes exactly where the
instruction does and with the same state; where it raises, so does the instruction, with the same fault or, where element
reads raise, with that of another active element (log 4). -/
def Obligations.OperationAgreesWithExec : Prop :=
  ∀ (i : Instr) (s : State),
    (∀ t, operation i s = .ok t → exec i s = .next t) ∧
    ∀ f, operation i s = .error f → ∃ f', exec i s = .fault f' ∧
      (f' = f ∨
        (∃ k, k < elementCount i s ∧ elementActive i s k = true ∧
          memRead s (elementAddr i s k) (accessDescriptor i.base) = .error f) ∧
        ∃ k, k < elementCount i s ∧ elementActive i s k = true ∧
          memRead s (elementAddr i s k) (accessDescriptor i.base) = .error f')

/-- What State.reset leaves. The spec has no reset and gives no value (R30, R120): every value is the model's choice, log 1
(configuration), 2 (VL), 5 (memory), 6 (registers), 7 (process and control state), 8 (pc and text), 28 (draws). -/
def Obligations.ResetValues : Prop :=
  (∀ n, State.reset.readX n = 0) ∧ State.reset.sp = 0 ∧ State.reset.pc = 0 ∧ (∀ n, State.reset.readZ n = 0) ∧
  (∀ g, State.reset.readP g = 0) ∧ State.reset.pstateSM = true ∧ State.reset.pstateDIT = false ∧
  State.reset.smeTrapped = false ∧ State.reset.spAlignCheck = true ∧ (∀ a, State.reset.byteAt a = none) ∧
  State.reset.codeBase = 0 ∧ State.reset.text = [] ∧ State.reset.cfg.featSme2 = true ∧
  State.reset.cfg.vl.bits = 128 ∧ State.reset.cfg.bigEndian = false ∧ State.reset.cfg.alignCheck = false ∧
  State.reset.cfg.counterTable = []
end

