-- ==== Sys2Proof/Laws/Encode.lean ====
section
/-! SUPPORT. The bits of an encoded word, field by field. -/

namespace Sys2Proof

theorem getLsbD_fields_two (o : BitVec 4) (m g : BitVec 3) (r : BitVec 5) (t f : BitVec 1) (z : BitVec 3) (n : Nat) :
    (0b101000010100#12 ++ o ++ m ++ g ++ r ++ t ++ f ++ z).getLsbD n =
      if n < 3 then z.getLsbD n else if n < 4 then f.getLsbD (n - 3) else if n < 5 then t.getLsbD (n - 4)
      else if n < 10 then r.getLsbD (n - 5) else if n < 13 then g.getLsbD (n - 10)
      else if n < 16 then m.getLsbD (n - 13) else if n < 20 then o.getLsbD (n - 16)
      else (0b101000010100#12).getLsbD (n - 20) := by
  simp only [BitVec.getLsbD_append]
  grind

theorem getLsbD_fields_four (o : BitVec 4) (m g : BitVec 3) (r : BitVec 5) (t : BitVec 1) (f z : BitVec 2) (n : Nat) :
    (0b101000010100#12 ++ o ++ m ++ g ++ r ++ t ++ f ++ z).getLsbD n =
      if n < 2 then z.getLsbD n else if n < 4 then f.getLsbD (n - 2) else if n < 5 then t.getLsbD (n - 4)
      else if n < 10 then r.getLsbD (n - 5) else if n < 13 then g.getLsbD (n - 10)
      else if n < 16 then m.getLsbD (n - 13) else if n < 20 then o.getLsbD (n - 16)
      else (0b101000010100#12).getLsbD (n - 20) := by
  simp only [BitVec.getLsbD_append]
  grind

/-- Bit n of a word of the two-register form (R61). -/
theorem getLsbD_encode_two (t : Fin 32) (g : Fin 16) (b : Base) (o : Int) (n : Nat) :
    (encode (.ld1hTwo t g b o)).getLsbD n =
      if n < 3 then (BitVec.ofNat 3 t.val).getLsbD n else if n < 4 then false else if n < 5 then (encodeT t).getLsbD (n - 4)
      else if n < 10 then (encodeBase b).getLsbD (n - 5) else if n < 13 then (encodePn g).getLsbD (n - 10)
      else if n < 16 then (0b001#3).getLsbD (n - 13) else if n < 20 then (encodeOffset o).getLsbD (n - 16)
      else (0b101000010100#12).getLsbD (n - 20) := by
  refine (getLsbD_fields_two ..).trans ?_
  simp

/-- Bit n of a word of the four-register form (R62). -/
theorem getLsbD_encode_four (t : Fin 32) (g : Fin 16) (b : Base) (o : Int) (n : Nat) :
    (encode (.ld1hFour t g b o)).getLsbD n =
      if n < 2 then (BitVec.ofNat 2 t.val).getLsbD n else if n < 4 then false else if n < 5 then (encodeT t).getLsbD (n - 4)
      else if n < 10 then (encodeBase b).getLsbD (n - 5) else if n < 13 then (encodePn g).getLsbD (n - 10)
      else if n < 16 then (0b101#3).getLsbD (n - 13) else if n < 20 then (encodeOffset o).getLsbD (n - 16)
      else (0b101000010100#12).getLsbD (n - 20) := by
  refine (getLsbD_fields_four ..).trans ?_
  simp

end Sys2Proof
end

