-- ==== Sys2Proof/Laws/State.lean ====
section
/-! SUPPORT. One lemma per field per update of the state, so that no later proof unfolds a record update. -/

namespace Sys2Proof.Machine

variable (s : State)

@[simp] theorem State.writeZ_cfg (n : Fin 32) (v : VecReg) : (s.writeZ n v).cfg = s.cfg := rfl
@[simp] theorem State.writeZ_x (n : Fin 32) (v : VecReg) : (s.writeZ n v).x = s.x := rfl
@[simp] theorem State.writeZ_sp (n : Fin 32) (v : VecReg) : (s.writeZ n v).sp = s.sp := rfl
@[simp] theorem State.writeZ_pc (n : Fin 32) (v : VecReg) : (s.writeZ n v).pc = s.pc := rfl
@[simp] theorem State.writeZ_z (n : Fin 32) (v : VecReg) : (s.writeZ n v).z = s.z.set n v := rfl
@[simp] theorem State.writeZ_p (n : Fin 32) (v : VecReg) : (s.writeZ n v).p = s.p := rfl
@[simp] theorem State.writeZ_pstateSM (n : Fin 32) (v : VecReg) : (s.writeZ n v).pstateSM = s.pstateSM := rfl
@[simp] theorem State.writeZ_pstateDIT (n : Fin 32) (v : VecReg) : (s.writeZ n v).pstateDIT = s.pstateDIT := rfl
@[simp] theorem State.writeZ_smeTrapped (n : Fin 32) (v : VecReg) : (s.writeZ n v).smeTrapped = s.smeTrapped := rfl
@[simp] theorem State.writeZ_spAlignCheck (n : Fin 32) (v : VecReg) : (s.writeZ n v).spAlignCheck = s.spAlignCheck := rfl
@[simp] theorem State.writeZ_mem (n : Fin 32) (v : VecReg) : (s.writeZ n v).mem = s.mem := rfl
@[simp] theorem State.writeZ_codeBase (n : Fin 32) (v : VecReg) : (s.writeZ n v).codeBase = s.codeBase := rfl
@[simp] theorem State.writeZ_text (n : Fin 32) (v : VecReg) : (s.writeZ n v).text = s.text := rfl
@[simp] theorem State.writeZ_draws (n : Fin 32) (v : VecReg) : (s.writeZ n v).draws = s.draws := rfl

@[simp] theorem State.advancePc_cfg : (s.advancePc).cfg = s.cfg := rfl
@[simp] theorem State.advancePc_x : (s.advancePc).x = s.x := rfl
@[simp] theorem State.advancePc_sp : (s.advancePc).sp = s.sp := rfl
@[simp] theorem State.advancePc_pc : (s.advancePc).pc = s.pc + 4 := rfl
@[simp] theorem State.advancePc_z : (s.advancePc).z = s.z := rfl
@[simp] theorem State.advancePc_p : (s.advancePc).p = s.p := rfl
@[simp] theorem State.advancePc_pstateSM : (s.advancePc).pstateSM = s.pstateSM := rfl
@[simp] theorem State.advancePc_pstateDIT : (s.advancePc).pstateDIT = s.pstateDIT := rfl
@[simp] theorem State.advancePc_smeTrapped : (s.advancePc).smeTrapped = s.smeTrapped := rfl
@[simp] theorem State.advancePc_spAlignCheck : (s.advancePc).spAlignCheck = s.spAlignCheck := rfl
@[simp] theorem State.advancePc_mem : (s.advancePc).mem = s.mem := rfl
@[simp] theorem State.advancePc_codeBase : (s.advancePc).codeBase = s.codeBase := rfl
@[simp] theorem State.advancePc_text : (s.advancePc).text = s.text := rfl
@[simp] theorem State.advancePc_draws : (s.advancePc).draws = s.draws := rfl

@[simp] theorem State.takeDraw_cfg : (s.takeDraw).cfg = s.cfg := rfl
@[simp] theorem State.takeDraw_x : (s.takeDraw).x = s.x := rfl
@[simp] theorem State.takeDraw_sp : (s.takeDraw).sp = s.sp := rfl
@[simp] theorem State.takeDraw_pc : (s.takeDraw).pc = s.pc := rfl
@[simp] theorem State.takeDraw_z : (s.takeDraw).z = s.z := rfl
@[simp] theorem State.takeDraw_p : (s.takeDraw).p = s.p := rfl
@[simp] theorem State.takeDraw_pstateSM : (s.takeDraw).pstateSM = s.pstateSM := rfl
@[simp] theorem State.takeDraw_pstateDIT : (s.takeDraw).pstateDIT = s.pstateDIT := rfl
@[simp] theorem State.takeDraw_smeTrapped : (s.takeDraw).smeTrapped = s.smeTrapped := rfl
@[simp] theorem State.takeDraw_spAlignCheck : (s.takeDraw).spAlignCheck = s.spAlignCheck := rfl
@[simp] theorem State.takeDraw_mem : (s.takeDraw).mem = s.mem := rfl
@[simp] theorem State.takeDraw_codeBase : (s.takeDraw).codeBase = s.codeBase := rfl
@[simp] theorem State.takeDraw_text : (s.takeDraw).text = s.text := rfl
@[simp] theorem State.takeDraw_draws : (s.takeDraw).draws = s.draws + 1 := rfl

@[simp] theorem State.loadText_cfg (b : Word64) (ws : List InsnWord) : (s.loadText b ws).cfg = s.cfg := rfl
@[simp] theorem State.loadText_x (b : Word64) (ws : List InsnWord) : (s.loadText b ws).x = s.x := rfl
@[simp] theorem State.loadText_sp (b : Word64) (ws : List InsnWord) : (s.loadText b ws).sp = s.sp := rfl
@[simp] theorem State.loadText_pc (b : Word64) (ws : List InsnWord) : (s.loadText b ws).pc = b := rfl
@[simp] theorem State.loadText_z (b : Word64) (ws : List InsnWord) : (s.loadText b ws).z = s.z := rfl
@[simp] theorem State.loadText_p (b : Word64) (ws : List InsnWord) : (s.loadText b ws).p = s.p := rfl
@[simp] theorem State.loadText_pstateSM (b : Word64) (ws : List InsnWord) : (s.loadText b ws).pstateSM = s.pstateSM := rfl
@[simp] theorem State.loadText_pstateDIT (b : Word64) (ws : List InsnWord) : (s.loadText b ws).pstateDIT = s.pstateDIT := rfl
@[simp] theorem State.loadText_smeTrapped (b : Word64) (ws : List InsnWord) : (s.loadText b ws).smeTrapped = s.smeTrapped := rfl
@[simp] theorem State.loadText_spAlignCheck (b : Word64) (ws : List InsnWord) : (s.loadText b ws).spAlignCheck = s.spAlignCheck := rfl
@[simp] theorem State.loadText_mem (b : Word64) (ws : List InsnWord) : (s.loadText b ws).mem = s.mem := rfl
@[simp] theorem State.loadText_codeBase (b : Word64) (ws : List InsnWord) : (s.loadText b ws).codeBase = b := rfl
@[simp] theorem State.loadText_text (b : Word64) (ws : List InsnWord) : (s.loadText b ws).text = ws := rfl
@[simp] theorem State.loadText_draws (b : Word64) (ws : List InsnWord) : (s.loadText b ws).draws = s.draws := rfl

@[simp] theorem State.withFetchWord_cfg (nbits w : Nat) : (s.withFetchWord nbits w).cfg = s.cfg := rfl
@[simp] theorem State.withFetchWord_x (nbits w : Nat) : (s.withFetchWord nbits w).x = s.x := rfl
@[simp] theorem State.withFetchWord_sp (nbits w : Nat) : (s.withFetchWord nbits w).sp = s.sp := rfl
@[simp] theorem State.withFetchWord_pc (nbits w : Nat) : (s.withFetchWord nbits w).pc = s.pc := rfl
@[simp] theorem State.withFetchWord_z (nbits w : Nat) : (s.withFetchWord nbits w).z = s.z := rfl
@[simp] theorem State.withFetchWord_p (nbits w : Nat) : (s.withFetchWord nbits w).p = s.p := rfl
@[simp] theorem State.withFetchWord_pstateSM (nbits w : Nat) : (s.withFetchWord nbits w).pstateSM = s.pstateSM := rfl
@[simp] theorem State.withFetchWord_pstateDIT (nbits w : Nat) : (s.withFetchWord nbits w).pstateDIT = s.pstateDIT := rfl
@[simp] theorem State.withFetchWord_smeTrapped (nbits w : Nat) : (s.withFetchWord nbits w).smeTrapped = s.smeTrapped := rfl
@[simp] theorem State.withFetchWord_spAlignCheck (nbits w : Nat) : (s.withFetchWord nbits w).spAlignCheck = s.spAlignCheck := rfl
@[simp] theorem State.withFetchWord_mem (nbits w : Nat) : (s.withFetchWord nbits w).mem = s.mem := rfl
@[simp] theorem State.withFetchWord_codeBase (nbits w : Nat) : (s.withFetchWord nbits w).codeBase = s.pc := rfl
@[simp] theorem State.withFetchWord_text (nbits w : Nat) : (s.withFetchWord nbits w).text = [tableWord nbits w] := rfl
@[simp] theorem State.withFetchWord_draws (nbits w : Nat) : (s.withFetchWord nbits w).draws = s.draws := rfl

@[simp] theorem State.readZ_writeZ_same (n : Fin 32) (v : VecReg) : (s.writeZ n v).readZ n = v := by
  simp [State.readZ, State.writeZ]

theorem State.readZ_writeZ_other {n m : Fin 32} (h : m ≠ n) (v : VecReg) : (s.writeZ n v).readZ m = s.readZ m := by
  have : n.val ≠ m.val := fun e => h (Fin.ext e.symm)
  simp [State.readZ, State.writeZ, Vector.getElem_set_ne _ _ this]

@[simp] theorem State.readZ_advancePc (m : Fin 32) : s.advancePc.readZ m = s.readZ m := rfl

@[simp] theorem State.readZ_takeDraw (m : Fin 32) : s.takeDraw.readZ m = s.readZ m := rfl

end Sys2Proof.Machine
end

