-- ==== Sys2Proof/Laws/Ops.lean ====
section
/-! SUPPORT. What each shared operation can do, said once: the read primitive, fetch, the checks. -/

namespace Sys2Proof.Machine

/-- When `MemRead` answers a halfword, and which. -/
theorem memRead_eq_ok_iff {s : State} {a : Word64} {acc : AccessDescriptor} {h : Half} :
    memRead s a acc = .ok h ↔
      (s.cfg.alignCheck && a.getLsbD 0) = false ∧ ∃ b0 b1, s.byteAt a = some b0 ∧
        s.byteAt (a + 1) = some b1 ∧ h = halfOfBytes s.cfg.bigEndian b0 b1 := by
  unfold memRead
  split
  · simp_all
  · rename_i hal
    rw [Bool.not_eq_true] at hal
    simp only [hal, true_and]
    cases h0 : s.byteAt a with
    | none => simp
    | some b0 =>
      cases h1 : s.byteAt (a + 1) with
      | none => simp
      | some b1 => simp [eq_comm]

/-- When `MemRead` raises, and what. -/
theorem memRead_eq_error_iff {s : State} {a : Word64} {acc : AccessDescriptor} {f : Fault} :
    memRead s a acc = .error f ↔
      ((s.cfg.alignCheck && a.getLsbD 0) = true ∧ f = .alignmentFault a) ∨
      ((s.cfg.alignCheck && a.getLsbD 0) = false ∧ s.byteAt a = none ∧ f = .dataAbort a) ∨
      ((s.cfg.alignCheck && a.getLsbD 0) = false ∧ (∃ b, s.byteAt a = some b) ∧
        s.byteAt (a + 1) = none ∧ f = .dataAbort (a + 1)) := by
  unfold memRead
  split
  · rename_i hal
    simp only [hal, Except.error.injEq, true_and, Bool.true_eq_false, false_and, or_false]
    exact eq_comm
  · rename_i hal
    rw [Bool.not_eq_true] at hal
    simp only [hal, Bool.false_eq_true, false_and, false_or, true_and]
    cases h0 : s.byteAt a with
    | none => simp [eq_comm]
    | some b0 =>
      cases h1 : s.byteAt (a + 1) with
      | none => simp [eq_comm]
      | some b1 => simp

/-- `MemRead` depends on the state through the configuration and its two bytes alone. -/
theorem memRead_congr {s s' : State} {a : Word64} {acc acc' : AccessDescriptor} (hc : s'.cfg = s.cfg)
    (h0 : s'.byteAt a = s.byteAt a)
    (h1 : s'.byteAt (a + 1) = s.byteAt (a + 1)) :
    memRead s' a acc' = memRead s a acc := by
  simp only [memRead, hc, h0, h1]

/-- `readable` is that the byte has a value. -/
theorem State.readable_iff {s : State} {a : Word64} : s.readable a = true ↔ ∃ b, s.byteAt a = some b := by
  simp [State.readable, Option.isSome_iff_exists]

/-- When fetch answers a word. -/
theorem fetch_eq_ok_iff {s : State} {w : InsnWord} :
    fetch s = .ok w ↔ s.pcOffset % 4 = 0 ∧ s.text[s.pcOffset / 4]? = some w := by
  unfold fetch
  split
  · rename_i h
    cases ht : s.text[s.pcOffset / 4]? with
    | none => simp only [h, true_and]; split <;> simp
    | some v => simp [h]
  · simp_all

/-- The step of a fetched word that decodes. -/
theorem step_of_decode {s : State} {w : InsnWord} {i : Instr} (hf : fetch s = .ok w) (hd : decode w = .ok i) :
    step s = exec i s := by
  simp [step, hf, hd]

/-- The step of a fetched word that does not decode. -/
theorem step_of_decode_error {s : State} {w : InsnWord} {e : DecodeError} (hf : fetch s = .ok w)
    (hd : decode w = .error e) : step s = .refused (refusalOf w e) := by
  simp [step, hf, hd]

/-- When a step answers a next state. -/
theorem step_eq_next_iff {s t : State} :
    step s = .next t ↔ ∃ w i, fetch s = .ok w ∧ decode w = .ok i ∧ exec i s = .next t := by
  unfold step
  cases hf : fetch s with
  | error r => simp
  | ok w =>
    cases hd : decode w with
    | error e => simp [hd]
    | ok i => simp [hd]

/-- The feature test passes exactly when the feature is there. -/
theorem checkFeature_eq_none_iff {s : State} {i : Instr} : checkFeature s i = none ↔ s.cfg.featSme2 = true := by
  unfold checkFeature
  split <;> simp_all

/-- CheckStreamingSVEEnabled returns exactly when SME is not trapped and the mode is on. -/
theorem checkStreamingSVEEnabled_eq_none_iff {s : State} :
    checkStreamingSVEEnabled s = none ↔ s.smeTrapped = false ∧ s.pstateSM = true := by
  unfold checkStreamingSVEEnabled
  split
  · simp_all
  · split <;> simp_all

/-- SP is misaligned exactly when it is no multiple of 16. -/
theorem spMisaligned_iff {s : State} : spMisaligned s = true ↔ s.sp.toNat % 16 ≠ 0 := by
  rw [spMisaligned, bne_iff_ne, ne_eq, ← BitVec.toNat_inj]
  simp

/-- Both instructions run the one procedure. -/
theorem exec_eq (i : Instr) (s : State) : exec i s = ld1hStrided i s := by
  cases i <;> rfl

end Sys2Proof.Machine
end

