-- ==== Sys2Proof/Laws/Load.lean ====
section
/-! SUPPORT. What each part of the load can do, said once: the mask, the active elements, the gathered halfwords, the
destination registers, and the one inversion lemma of the whole procedure. -/

namespace Sys2Proof.Machine

/-! ## Lengths -/

/-- A vector register is its halfwords, 16 bits each (R84). -/
theorem elements_mul_16 (vl : VectorLength) : 16 * vl.elements = vl.bits := by cases vl <;> rfl

/-- There are two mask bits for each halfword (R84, R86). -/
theorem elements_mul_2 (vl : VectorLength) : 2 * vl.elements = vl.pl := by cases vl <;> rfl

theorem elements_pos (vl : VectorLength) : 0 < vl.elements := by cases vl <;> decide

theorem elements_le_128 (vl : VectorLength) : vl.elements ≤ 128 := by cases vl <;> decide

theorem nreg_le_4 (i : Instr) : i.nreg ≤ 4 := by cases i <;> simp [Instr.nreg]

/-! ## The mask (R85, R86) -/

/-- A bit of the expanded counter, by the recommended body. -/
theorem getLsbD_recommendedCounterToPredicate (vl : VectorLength) (c : Half) (w b : Nat) :
    (recommendedCounterToPredicate vl c w).getLsbD b =
      (decide (c.extractLsb' 0 4 ≠ 0) && decide (b < w) && decide (b < vl.pl * 4) && counterBit vl c b) := by
  unfold recommendedCounterToPredicate
  split
  · simp_all
  · rename_i h
    have h' : c.extractLsb' 0 4 ≠ 0#4 := h
    rw [BitVec.getLsbD_setWidth]
    by_cases hb : b < vl.pl * 4
    · rw [BitVec.getLsbD_eq_getElem hb, BitVec.getElem_ofFnLE]
      simp [h', hb]
    · rw [BitVec.getLsbD_of_ge _ b (by omega)]
      simp [hb]

/-- With no entry for this counter and width the parameter is the recommended body (R5, D5). -/
theorem counterToPredicate_of_unlisted {cfg : Config} {c : Half} {w : Nat}
    (h : ∀ e ∈ cfg.counterTable, e.counter = c → e.width ≠ w) :
    counterToPredicate cfg c w = recommendedCounterToPredicate cfg.vl c w := by
  have hn : cfg.counterTable.find? (fun e => e.counter == c && e.width == w) = none := by
    simpa [List.find?_eq_none] using h
  rw [counterToPredicate, hn]

/-- Where every entry for this counter and width gives one mask, and there is such an entry, that mask is the value. -/
theorem counterToPredicate_of_listed {cfg : Config} {c : Half} {w : Nat} {mask : BitVec 1024}
    (hex : ∃ e ∈ cfg.counterTable, e.counter = c ∧ e.width = w)
    (h : ∀ e ∈ cfg.counterTable, e.counter = c → e.width = w → e.mask = mask) :
    counterToPredicate cfg c w = mask.setWidth w := by
  obtain ⟨e, hs⟩ := Option.isSome_iff_exists.mp
    (show (cfg.counterTable.find? (fun e => e.counter == c && e.width == w)).isSome = true by
      simpa [List.find?_isSome] using hex)
  have hp := List.find?_some hs
  simp only [Bool.and_eq_true, beq_iff_eq] at hp
  rw [counterToPredicate, hs, ← h e (List.mem_of_find?_eq_some hs) hp.1 hp.2]

/-- Some element is active exactly when one of those the mask has room for is. -/
theorem anyActiveElement_eq_true_iff {w : Nat} (mask : BitVec w) (esize : Nat) :
    anyActiveElement mask esize = true ↔ ∃ k < w / (esize / 8), activePredicateElement mask k esize = true := by
  simp [anyActiveElement, List.any_eq_true]

/-- Step S4: some halfword of the list is active (R86). -/
theorem anyActive_eq_true_iff {i : Instr} {s : State} :
    anyActive i s = true ↔ ∃ k < elementCount i s, elementActive i s k = true := by
  have : s.cfg.vl.pl * i.nreg / (16 / 8) = elementCount i s := by
    rw [← elements_mul_2, elementCount, Nat.mul_assoc, Nat.mul_div_cancel_left _ (by decide), Nat.mul_comm]
  rw [anyActive, anyActiveElement_eq_true_iff, this]
  rfl

theorem anyActive_eq_false_iff {i : Instr} {s : State} :
    anyActive i s = false ↔ ∀ k < elementCount i s, elementActive i s k = false := by
  rw [← Bool.not_eq_true, anyActive_eq_true_iff]
  simp

/-! ## Registers made of halfwords (R6, R89) -/

theorem packHalves_toNat_lt (hs : List Half) : (packHalves hs).toNat < 2 ^ (16 * hs.length) := by
  induction hs with
  | nil =>
    have h0 : (packHalves []).toNat = 0 := BitVec.toNat_zero
    rw [h0]
    exact Nat.two_pow_pos _
  | cons h rest ih =>
    rw [packHalves, BitVec.toNat_or]
    apply Nat.or_lt_two_pow
    · rw [BitVec.toNat_shiftLeft, Nat.shiftLeft_eq, List.length_cons]
      refine Nat.lt_of_le_of_lt (Nat.mod_le _ _) ?_
      rw [show 16 * (rest.length + 1) = 16 * rest.length + 16 by ring, Nat.pow_add]
      exact Nat.mul_lt_mul_of_pos_right ih (by decide)
    · rw [BitVec.toNat_setWidth]
      refine Nat.lt_of_le_of_lt (Nat.mod_le _ _) (Nat.lt_of_lt_of_le h.isLt ?_)
      exact Nat.pow_le_pow_right (by decide) (by simp)

/-- Bit b of a register is bit `b mod 16` of its halfword `b / 16`. -/
theorem getLsbD_packHalves (hs : List Half) (b : Nat) (hb : b < 2048) :
    (packHalves hs).getLsbD b = (hs.getD (b / 16) 0).getLsbD (b % 16) := by
  induction hs generalizing b with
  | nil => simp [packHalves]
  | cons h rest ih =>
    rw [packHalves, BitVec.getLsbD_or, BitVec.getLsbD_shiftLeft, BitVec.getLsbD_setWidth]
    by_cases h16 : b < 16
    · simp [h16, hb, Nat.div_eq_of_lt h16, Nat.mod_eq_of_lt h16]
    · have hd : b / 16 = (b - 16) / 16 + 1 := by omega
      have hm : b % 16 = (b - 16) % 16 := by omega
      rw [hd, hm, List.getD_cons_succ, ← ih (b - 16) (by omega)]
      simp [h16, hb, BitVec.getLsbD_of_ge h b (by omega)]

/-- Element e of a register is its e-th halfword (R6). -/
theorem extract_packHalves (hs : List Half) (e : Nat) (he : e < 128) :
    (packHalves hs).extractLsb' (16 * e) 16 = hs.getD e 0 := by
  apply BitVec.eq_of_getLsbD_eq
  intro j hj
  rw [BitVec.getLsbD_extractLsb', getLsbD_packHalves _ _ (by omega)]
  simp [hj, show (16 * e + j) / 16 = e by omega, Nat.mod_eq_of_lt hj]

/-- The value of the r-th register has VL bits (R23, D9). -/
theorem registerValue_toNat_lt (vl : VectorLength) (values : List Half) (r : Nat) :
    (registerValue vl.elements values r).toNat < 2 ^ vl.bits := by
  refine Nat.lt_of_lt_of_le (packHalves_toNat_lt _) (Nat.pow_le_pow_right (by decide) ?_)
  rw [← elements_mul_16]
  exact Nat.mul_le_mul_left _ (List.length_take_le _ _)

/-- Element e of the r-th register is halfword `r * elements + e` of those gathered (R47, R89). -/
theorem extract_registerValue {elements e : Nat} (he : e < elements) (h128 : elements ≤ 128) (values : List Half) (r : Nat) :
    (registerValue elements values r).extractLsb' (16 * e) 16 = values.getD (r * elements + e) 0 := by
  rw [registerValue, extract_packHalves _ _ (by omega)]
  simp [List.getD_eq_getElem?_getD, he]

/-! ## Destinations (R90) -/

/-- The destination numbers of a well-formed instruction do not wrap (R63, R64). -/
theorem destReg_val {i : Instr} (h : i.WellFormed) {r : Nat} (hr : r < i.nreg) :
    (destReg i.zt1 i.tstride r).val = i.zt1.val + r * i.tstride := by
  have ht := i.zt1.isLt
  have hd : i.zt1.val % 16 < i.tstride := h.1
  clear h
  rw [destReg, Fin.val_ofNat]
  cases i <;> simp only [Instr.nreg, Instr.tstride, Instr.zt1] at * <;> omega

/-- The destinations of a well-formed instruction are pairwise distinct (R90). -/
theorem destReg_ne {i : Instr} (h : i.WellFormed) {r r' : Nat} (hr : r < i.nreg) (hr' : r' < i.nreg) (hne : r ≠ r') :
    destReg i.zt1 i.tstride r ≠ destReg i.zt1 i.tstride r' := by
  intro he
  have := congrArg Fin.val he
  rw [destReg_val h hr, destReg_val h hr'] at this
  cases i <;> simp only [Instr.nreg, Instr.tstride, Instr.zt1] at * <;> omega

/-- The register writes change the Z registers alone. -/
theorem writeDestinations_eq (t : Fin 32) (tstride elements : Nat) (values : List Half) (n : Nat) (s : State) :
    writeDestinations t tstride elements values n s =
      { s with z := (writeDestinations t tstride elements values n s).z } := by
  induction n with
  | zero => rfl
  | succ n ih =>
    rw [writeDestinations, ih]
    rfl

/-- A register that is no destination keeps its value (R31, R92). -/
theorem readZ_writeDestinations_other {t : Fin 32} {tstride elements : Nat} {values : List Half} {n : Nat} {s : State}
    {m : Fin 32} (h : ∀ r < n, m ≠ destReg t tstride r) :
    (writeDestinations t tstride elements values n s).readZ m = s.readZ m := by
  induction n with
  | zero => rfl
  | succ n ih =>
    rw [writeDestinations, State.readZ_writeZ_other _ (h n (Nat.lt_succ_self n))]
    exact ih fun r hr => h r (Nat.lt_succ_of_lt hr)

/-- The r-th destination receives the r-th value, where the destinations are distinct (R90). -/
theorem readZ_writeDestinations {t : Fin 32} {tstride elements : Nat} {values : List Half} {n : Nat} {s : State} {r : Nat}
    (hr : r < n) (h : ∀ r' < n, r' ≠ r → destReg t tstride r' ≠ destReg t tstride r) :
    (writeDestinations t tstride elements values n s).readZ (destReg t tstride r) = registerValue elements values r := by
  induction n with
  | zero => omega
  | succ n ih =>
    rw [writeDestinations]
    by_cases hn : n = r
    · subst hn
      exact State.readZ_writeZ_same _ _ _
    · rw [State.readZ_writeZ_other _ (fun he => h n (Nat.lt_succ_self n) hn he.symm)]
      exact ih (by omega) fun r' hr' => h r' (Nat.lt_succ_of_lt hr')

/-! ## The element reads (R49, R89) -/

@[simp] theorem readFault_eq_some_iff {x : Except Fault Half} {f : Fault} : readFault x = some f ↔ x = .error f := by
  cases x <;> simp [readFault]

@[simp] theorem readFault_eq_none_iff {x : Except Fault Half} : readFault x = none ↔ ∃ h, x = .ok h := by
  cases x <;> simp [readFault]

/-- The faults of the element reads are those of the active elements whose read raises. -/
theorem mem_elementFaults {i : Instr} {s : State} {f : Fault} :
    f ∈ elementFaults i s ↔ ∃ k < elementCount i s, elementActive i s k = true ∧
      memRead s (elementAddr i s k) (accessDescriptor i.base) = .error f := by
  simp only [elementFaults, List.mem_filterMap, List.mem_range, readFault_eq_some_iff, elementRead]
  constructor
  · rintro ⟨k, hk, h⟩
    split at h
    · exact ⟨k, hk, ‹_›, h⟩
    · cases h
  · rintro ⟨k, hk, ha, h⟩
    exact ⟨k, hk, by simpa [ha] using h⟩

/-- The reported fault is one of the candidates (R49). -/
theorem reportFault_mem (s : State) (f : Fault) (others : List Fault) : reportFault s f others ∈ f :: others := by
  unfold reportFault
  cases others with
  | nil => simp
  | cons g gs =>
    show List.getD (f :: g :: gs) _ f ∈ _
    rw [List.getD_eq_getElem?_getD]
    cases h : (f :: g :: gs)[Config.reportedFault s.draws % ((g :: gs).length + 1)]? with
    | none => simp
    | some v => exact List.mem_of_getElem? h

/-- Step S7 gathers every element exactly when no read of an active element raises. -/
theorem loadElements_eq_ok_iff {i : Instr} {s : State} {values : List Half} :
    loadElements i s = .ok values ↔ values = elementValues i s ∧
      ∀ k < elementCount i s, elementActive i s k = true →
        ∃ h, memRead s (elementAddr i s k) (accessDescriptor i.base) = .ok h := by
  have key : elementFaults i s = [] ↔ ∀ k < elementCount i s, elementActive i s k = true →
      ∃ h, memRead s (elementAddr i s k) (accessDescriptor i.base) = .ok h := by
    rw [List.eq_nil_iff_forall_not_mem]
    constructor
    · intro h k hk ha
      cases hr : memRead s (elementAddr i s k) (accessDescriptor i.base) with
      | ok v => exact ⟨v, rfl⟩
      | error f => exact absurd (mem_elementFaults.mpr ⟨k, hk, ha, hr⟩) (h f)
    · intro h f hf
      obtain ⟨k, hk, ha, hr⟩ := mem_elementFaults.mp hf
      obtain ⟨v, hv⟩ := h k hk ha
      simp [hv] at hr
  rw [← key, loadElements]
  cases elementFaults i s <;> simp [eq_comm]

/-- Where step S7 raises, it is the fault of an active element's read (R49, R104, R105). -/
theorem loadElements_eq_error {i : Instr} {s : State} {f : Fault} (h : loadElements i s = .error f) :
    ∃ k < elementCount i s, elementActive i s k = true ∧
      memRead s (elementAddr i s k) (accessDescriptor i.base) = .error f := by
  rw [← mem_elementFaults]
  rw [loadElements] at h
  cases hf : elementFaults i s with
  | nil => simp [hf] at h
  | cons g gs =>
    simp only [hf, Except.error.injEq] at h
    exact h ▸ reportFault_mem s g gs

@[simp] theorem length_elementValues (i : Instr) (s : State) : (elementValues i s).length = elementCount i s := by
  simp [elementValues]

/-- Halfword k of those gathered. -/
theorem getD_elementValues {i : Instr} {s : State} {k : Nat} (hk : k < elementCount i s) :
    (elementValues i s).getD k 0 = readHalf (elementRead i s k) := by
  simp [elementValues, List.getD_eq_getElem?_getD, hk]

/-! ## The checks before the loads (R106) -/

/-- The checks pass exactly when the feature is there, SME is not trapped, the mode is on and the SP step passes. -/
theorem earlyFault_eq_none_iff {i : Instr} {s : State} :
    earlyFault i s = none ↔ s.cfg.featSme2 = true ∧ s.smeTrapped = false ∧ s.pstateSM = true ∧ spAlignmentStep i s = none := by
  rw [earlyFault, Option.or_eq_none_iff, Option.or_eq_none_iff, checkFeature_eq_none_iff,
    checkStreamingSVEEnabled_eq_none_iff]
  tauto

/-- The one fault of the SP step, and when it is raised (R87, R103). -/
theorem spAlignmentStep_eq {i : Instr} {s : State} :
    spAlignmentStep i s = if i.base = .sp ∧ spCheckFails s = true ∧ (anyActive i s = true ∨ Config.drawCheckSp s.draws = true)
      then some .spAlignmentFault else none := by
  unfold spAlignmentStep
  cases i.base with
  | x n => simp
  | sp =>
    cases spCheckFails s <;> cases anyActive i s <;> cases Config.drawCheckSp s.draws <;> simp

/-- The draw changes the count of draws alone. -/
theorem drawStep_eq (i : Instr) (s : State) : drawStep i s = { s with draws := (drawStep i s).draws } := by
  unfold drawStep
  split
  · rfl
  · split <;> rfl

@[simp] theorem readZ_drawStep (i : Instr) (s : State) (m : Fin 32) : (drawStep i s).readZ m = s.readZ m := by
  rw [drawStep_eq]
  rfl

/-! ## The procedure (R80) -/

/-- Everything the instruction can do: a check raises; a read raises; or it completes with every element gathered. -/
theorem ld1hStrided_cases (i : Instr) (s : State) :
    (∃ f, earlyFault i s = some f ∧ ld1hStrided i s = .fault f) ∨
    (earlyFault i s = none ∧ ∃ f, loadElements i s = .error f ∧ ld1hStrided i s = .fault f) ∨
    (earlyFault i s = none ∧ loadElements i s = .ok (elementValues i s) ∧
      ld1hStrided i s = .next (completeLoad i s (elementValues i s))) := by
  unfold ld1hStrided raise
  cases he : earlyFault i s with
  | some f => exact .inl ⟨f, rfl, rfl⟩
  | none =>
    cases hl : loadElements i s with
    | error f => exact .inr (.inl ⟨rfl, f, rfl, rfl⟩)
    | ok values =>
      obtain rfl := (loadElements_eq_ok_iff.mp hl).1
      exact .inr (.inr ⟨rfl, rfl, rfl⟩)

/-- When an instruction answers a next state, and which. -/
theorem exec_eq_next_iff {i : Instr} {s t : State} :
    exec i s = .next t ↔ earlyFault i s = none ∧ loadElements i s = .ok (elementValues i s) ∧
      t = completeLoad i s (elementValues i s) := by
  rw [exec_eq]
  rcases ld1hStrided_cases i s with ⟨f, he, h⟩ | ⟨he, f, hl, h⟩ | ⟨he, hl, h⟩
  · simp [h, he]
  · simp [h, hl]
  · simp [h, he, hl, eq_comm]

/-- A completed load changes the Z registers, pc and the count of draws alone. -/
theorem completeLoad_eq (i : Instr) (s : State) (values : List Half) :
    completeLoad i s values =
      { s with z := (completeLoad i s values).z, pc := s.pc + 4, draws := (drawStep i s).draws } := by
  unfold completeLoad
  rw [writeDestinations_eq, drawStep_eq]
  rfl

/-- The r-th destination after a completed load of a well-formed instruction. -/
theorem readZ_completeLoad {i : Instr} (h : i.WellFormed) (s : State) (values : List Half) {r : Nat} (hr : r < i.nreg) :
    (completeLoad i s values).readZ (destReg i.zt1 i.tstride r) = registerValue s.cfg.vl.elements values r := by
  unfold completeLoad
  rw [State.readZ_advancePc]
  exact readZ_writeDestinations hr fun r' hr' hne => destReg_ne h hr' hr hne

end Sys2Proof.Machine
end

