-- ==== Sys2Proof/Laws/Memory.lean ====
section
/-! SUPPORT. The memory operations keep the canonical form, and what a byte reads as after them. -/

namespace Sys2Proof.Machine

theorem Memory.byteAt_place (m : Memory) (a b : Nat) (v : Byte) :
    Memory.byteAt (Memory.place m a v) b = if a = b then some v else Memory.byteAt m b := by
  induction m with
  | nil => simp [Memory.place, Memory.byteAt]
  | cons c rest ih =>
    obtain ⟨k, w⟩ := c
    unfold Memory.place
    split
    · simp [Memory.byteAt]
    · split
      · subst_vars
        by_cases h : k = b <;> simp [Memory.byteAt, h]
      · simp only [Memory.byteAt, ih]
        split <;> split <;> simp_all

theorem Memory.mem_place {m : Memory} {a : Nat} {v : Byte} {c : Host.Cell} (h : c ∈ Memory.place m a v) :
    c = (a, v) ∨ c ∈ m := by
  induction m with
  | nil => simpa [Memory.place] using h
  | cons d rest ih =>
    obtain ⟨k, w⟩ := d
    unfold Memory.place at h
    split at h
    · simpa using h
    · split at h
      · rcases List.mem_cons.mp h with h | h
        · exact .inl h
        · exact .inr (List.mem_cons_of_mem _ h)
      · rcases List.mem_cons.mp h with h | h
        · exact .inr (by simp [h])
        · exact (ih h).imp_right (List.mem_cons_of_mem _)

theorem Memory.place_keeps_wf {m : Memory} {a : Nat} {v : Byte} (h : Memory.wf m) (ha : a < 2 ^ 64) :
    Memory.wf (Memory.place m a v) := by
  refine ⟨?_, fun c hc => ?_⟩
  · induction m with
    | nil => simp [Memory.place]
    | cons d rest ih =>
      obtain ⟨k, w⟩ := d
      obtain ⟨hp, hb⟩ := h
      have hp' := List.pairwise_cons.mp hp
      unfold Memory.place
      split
      · rename_i hlt
        refine List.pairwise_cons.mpr ⟨fun c hc => ?_, hp⟩
        rcases List.mem_cons.mp hc with rfl | hc
        · exact hlt
        · exact Nat.lt_trans hlt (hp'.1 c hc)
      · split
        · subst_vars
          exact List.pairwise_cons.mpr ⟨hp'.1, hp'.2⟩
        · refine List.pairwise_cons.mpr
            ⟨fun c hc => ?_, ih ⟨hp'.2, fun c hc => hb c (List.mem_cons_of_mem _ hc)⟩⟩
          rcases Memory.mem_place hc with rfl | hc
          · show k < a
            omega
          · exact hp'.1 c hc
  · rcases Memory.mem_place hc with rfl | hc
    · exact ha
    · exact h.2 c hc

theorem Memory.unmap_keeps_wf {m : Memory} {a : Nat} (h : Memory.wf m) : Memory.wf (Memory.unmap m a) :=
  ⟨h.1.filter _, fun c hc => h.2 c (List.mem_filter.mp hc).1⟩

theorem Memory.byteAt_unmap (m : Memory) (a b : Nat) :
    Memory.byteAt (Memory.unmap m a) b = if a = b then none else Memory.byteAt m b := by
  induction m with
  | nil => simp [Memory.unmap, Memory.byteAt]
  | cons c rest ih =>
    obtain ⟨k, w⟩ := c
    have ih' : Memory.byteAt (List.filter (fun c : Host.Cell => decide (c.1 ≠ a)) rest) b =
        if a = b then none else Memory.byteAt rest b := ih
    by_cases hk : k = a
    · subst hk
      simp only [Memory.unmap, List.filter_cons, ne_eq, not_true_eq_false, decide_false, Bool.false_eq_true, if_false]
      rw [show (fun c : Host.Cell => decide (¬c.1 = k)) = (fun c : Host.Cell => decide (c.1 ≠ k)) from rfl, ih']
      by_cases hb : k = b <;> simp [Memory.byteAt, hb]
    · simp only [Memory.unmap, List.filter_cons, ne_eq, hk, not_false_eq_true, decide_true, if_true, Memory.byteAt]
      rw [show (fun c : Host.Cell => decide (¬c.1 = a)) = (fun c : Host.Cell => decide (c.1 ≠ a)) from rfl, ih']
      by_cases hb : k = b
      · have : a ≠ b := fun e => hk (by omega)
        simp [hb, this]
      · simp [hb]

theorem Memory.wf_reset : Memory.wf State.reset.mem := ⟨List.Pairwise.nil, fun _ h => nomatch h⟩

end Sys2Proof.Machine
end

