-- ==== Sys2Proof/Laws/PerInstr.lean ====
section
/-! SUPPORT. Statements about every instruction as syntax, one lemma per constructor: its fixed bits, its destinations. -/

namespace Sys2Proof.Laws

open Sys2Proof.Machine

/-- The row of the opcode table an instruction belongs to (R66). -/
def rowOf : Instr → OpcodeRow
  | .ld1hTwo _ _ _ _ => rowTwo
  | .ld1hFour _ _ _ _ => rowFour

/-- The word of an instruction has its row's fixed bits, whatever its operands are (R61, R62, R66). -/
def FixedBits.Statement (i : Instr) : Prop := rowMatches (rowOf i) (encode i) = true

theorem FixedBits.ld1hTwo (zt1 : Fin 32) (pn : Fin 16) (base : Base) (offset : Int) :
    FixedBits.Statement (.ld1hTwo zt1 pn base offset) := by
  unfold FixedBits.Statement rowMatches rowOf rowTwo
  rw [beq_iff_eq]
  apply BitVec.eq_of_getLsbD_eq
  intro b hb
  rw [BitVec.getLsbD_and, getLsbD_encode_two]
  interval_cases b <;> simp

theorem FixedBits.ld1hFour (zt1 : Fin 32) (pn : Fin 16) (base : Base) (offset : Int) :
    FixedBits.Statement (.ld1hFour zt1 pn base offset) := by
  unfold FixedBits.Statement rowMatches rowOf rowFour
  rw [beq_iff_eq]
  apply BitVec.eq_of_getLsbD_eq
  intro b hb
  rw [BitVec.getLsbD_and, getLsbD_encode_four]
  interval_cases b <;> simp

/-- The destination list of a well-formed instruction: `t + r * tstride`, none twice, none past Z31 (R63, R64, R90). -/
def Destinations.Statement (i : Instr) : Prop :=
  i.WellFormed → ∀ r < i.nreg, (destReg i.zt1 i.tstride r).val = i.zt1.val + r * i.tstride ∧
    ∀ r' < i.nreg, r ≠ r' → destReg i.zt1 i.tstride r ≠ destReg i.zt1 i.tstride r'

theorem Destinations.ld1hTwo (zt1 : Fin 32) (pn : Fin 16) (base : Base) (offset : Int) :
    Destinations.Statement (.ld1hTwo zt1 pn base offset) :=
  fun h _ hr => ⟨destReg_val h hr, fun _ hr' hne => destReg_ne h hr hr' hne⟩

theorem Destinations.ld1hFour (zt1 : Fin 32) (pn : Fin 16) (base : Base) (offset : Int) :
    Destinations.Statement (.ld1hFour zt1 pn base offset) :=
  fun h _ hr => ⟨destReg_val h hr, fun _ hr' hne => destReg_ne h hr hr' hne⟩

end Sys2Proof.Laws
end

