-- ==== Sys2Proof/Tests/Slice0.lean ====
section
/-! SUPPORT. The model's own tests: ill-formed terms refused, words written out from the diagrams, the spec's vectors, and
for each statement with hypotheses a state and operands that meet them all. -/

namespace Sys2Proof.Tests

open Sys2Proof.Machine

/-! ## Helpers -/

/-- The next state of an outcome. -/
def nextOf : Host.Outcome State Fault Refusal → Option State
  | .next t => some t
  | _ => none

/-- The fault of an outcome. -/
def faultOf : Host.Outcome State Fault Refusal → Option Fault
  | .fault f => some f
  | _ => none

/-- The refusal of an outcome. -/
def refusalOfOutcome : Host.Outcome State Fault Refusal → Option Refusal
  | .refused r => some r
  | _ => none

theorem exists_next {o : Host.Outcome State Fault Refusal} (h : (nextOf o).isSome = true) : ∃ t, o = .next t := by
  cases o with
  | next t => exact ⟨t, rfl⟩
  | fault f => cases h
  | refused r => cases h

theorem fault_of {o : Host.Outcome State Fault Refusal} {f : Fault} (h : faultOf o = some f) : o = .fault f := by
  cases o with
  | next t => cases h
  | fault g => exact congrArg _ (Option.some.inj h)
  | refused r => cases h

/-- `n` bytes from `base` up, byte k of value k: pattern A of 95_test_vectors.md section 3.3. -/
def patternA (base n : Nat) : Memory := (List.range n).map fun k => (base + k, BitVec.ofNat 8 k)

/-- A launch in the default configuration: X0 and SP 0x1000, PN8 the counter `c`, `n` bytes readable from 0x1000, and the
word E1 at pc. -/
def launch (c : PredReg) (n : Nat) : State :=
  { State.reset with
    mem := patternA 0x1000 n, x := State.reset.x.set 0 0x1000, sp := 0x1000, p := State.reset.p.set 8 c
    text := [0xA1402000#32] }

/-- E1: `LD1H Z0.H, Z8.H, PN8/Z, [X0]`. -/
def e1 : Instr := .ld1hTwo 0 8 (.x 0) 0

/-- E8: the same with the base SP. -/
def e8 : Instr := .ld1hTwo 0 8 .sp 0

/-- E10: `LD1H Z0.H, Z4.H, Z8.H, Z12.H, PN8/Z, [X0]`. -/
def e10 : Instr := .ld1hFour 0 8 (.x 0) 0

/-! ## Ill-formed terms, one for each check (R71; 95_test_vectors.md section 2.3) -/

theorem test_illformed_two_dest : ¬ (Instr.ld1hTwo 8 8 (.x 0) 0).WellFormed := by decide
theorem test_illformed_four_dest : ¬ (Instr.ld1hFour 4 8 (.x 0) 0).WellFormed := by decide
theorem test_illformed_two_pred : ¬ (Instr.ld1hTwo 0 7 (.x 0) 0).WellFormed := by decide
theorem test_illformed_two_offset : ¬ (Instr.ld1hTwo 0 8 (.x 0) 8).WellFormed := by decide
theorem test_illformed_four_offset : ¬ (Instr.ld1hFour 0 8 (.x 0) (-9)).WellFormed := by decide
theorem test_wellformed_boundaries :
    (Instr.ld1hTwo 23 15 .sp (-8)).WellFormed ∧ (Instr.ld1hFour 19 8 (.x 30) 7).WellFormed := by decide

/-! ## Words written out from the diagrams (R61, R62; E4, E5, E12, E13; X1, X9) -/

theorem test_decode_E4 : decode 0b1010000101000111_001_111_11110_1_0_111#32 = .ok (.ld1hTwo 23 15 (.x 30) 7) := by decide
theorem test_decode_E5 : decode 0b1010000101001111_001_011_11111_0_0_101#32 = .ok (.ld1hTwo 5 11 .sp (-1)) := by decide
theorem test_decode_E12 : decode 0b1010000101000111_101_111_11110_1_00_11#32 = .ok (.ld1hFour 19 15 (.x 30) 7) := by decide
theorem test_decode_E13 : decode 0b1010000101001000_101_100_00010_1_00_00#32 = .ok (.ld1hFour 16 12 (.x 2) (-8)) := by decide
theorem test_decode_X1 : decode 0xA1402008#32 = .error (.notInSpec 0xA1402008#32) := by decide
theorem test_decode_X9 : decode 0xA140A008#32 = .error (.notInSpec 0xA140A008#32) := by decide
theorem test_decode_bytes_E11 :
    decodeBytes [0xE1#8, 0xA7#8, 0x4F#8, 0xA1#8, 0x55#8] = .ok (.ld1hFour 1 9 .sp (-1), [0x55#8]) := by decide
theorem test_decode_truncated : decodeBytes [0xE1#8, 0xA7#8, 0x4F#8] = .error .truncated := by decide
theorem test_encode_E4_E13 :
    encode (.ld1hTwo 23 15 (.x 30) 7) = 0xA1473FD7#32 ∧ encode (.ld1hFour 16 12 (.x 2) (-8)) = 0xA148B050#32 := by decide

/-- The assembler line of E5 in both directions. -/
theorem test_assemble_E5 :
    assemble { regs := [5, 13], pred := 11, base := .sp, imm := some (-2) } = some 0xA14F2FE5#32 ∧
      disassembleWord 0xA14F2FE5#32 = some { regs := [5, 13], pred := 11, base := .sp, imm := some (-2) } := by decide

/-- A line whose second register is not the first plus 8 has no encoding (95_test_vectors.md section 2.3). -/
theorem test_assemble_refuses : assemble { regs := [0, 1], pred := 8, base := .x 0, imm := none } = none := by decide

/-! ## The counter (M6 and M7) -/

theorem test_counter_M6 : counterToPredicate Config.default 0x800E#16 32 = 0x55555540#32 := by decide +kernel
theorem test_counter_M7 : counterToPredicate Config.default 0x0052#16 64 = 0x0000005555555555#64 := by decide +kernel

/-- The parameter of R5 replaced: with the mask of M6 listed for the counter 0x0002, the step of V5 is taken from it. -/
theorem test_counter_from_configuration :
    (nextOf (step { launch 0x0002 32 with
      cfg := { Config.default with counterTable := [{ counter := 0x0002, width := 32, mask := 0x55555540 }] } })).map
      (fun t => (t.readZ 0, t.readZ 8)) =
      some (0x0F0E0D0C0B0A09080706000000000000#2048, 0x1F1E1D1C1B1A19181716151413121110#2048) := by decide +kernel

/-! ## One step of each instruction (V5 and F10; V9 and V19) -/

theorem test_two_V5 :
    (nextOf (step (launch 0x800E 32))).map (fun t => (t.readZ 0, t.readZ 8, t.pc)) =
      some (0x0F0E0D0C0B0A09080706000000000000#2048, 0x1F1E1D1C1B1A19181716151413121110#2048, 4#64) := by decide +kernel

theorem test_two_F10 : faultOf (step (launch 0x0026 16)) = some (.dataAbort 0x1010#64) := by decide +kernel

theorem test_four_V9 :
    (nextOf (exec (.ld1hFour 1 9 .sp (-1))
      { State.reset with mem := patternA 0x2000 64, sp := 0x2040, p := State.reset.p.set 9 0x8002 })).map
      (fun t => (t.readZ 1, t.readZ 5, t.readZ 9, t.readZ 13)) =
      some (0x0F0E0D0C0B0A09080706050403020100#2048, 0x1F1E1D1C1B1A19181716151413121110#2048,
        0x2F2E2D2C2B2A29282726252423222120#2048, 0x3F3E3D3C3B3A39383736353433323130#2048) := by decide +kernel

theorem test_four_V19 :
    (nextOf (exec e10 (launch 0x0052 64))).map (fun t => (t.readZ 0, t.readZ 4, t.readZ 8, t.readZ 12)) =
      some (0x0F0E0D0C0B0A09080706050403020100#2048, 0x1F1E1D1C1B1A19181716151413121110#2048,
        0x00000000000000002726252423222120#2048, 0#2048) := by decide +kernel

/-- A word placed at reset is decoded and executed as the first instruction (log 8). -/
theorem test_first_instruction_after_reset :
    decodeTableWord 32 0xA140A000 = some e10 ∧
      (nextOf (step (State.reset.withFetchWord 32 0xA140A000))).map (fun t => t.pc) = some 4#64 := by decide +kernel

/-! ## The hypotheses of each statement can be met -/

/-- The word and its place, for StepRunsDecodedInstruction and DecodeOutcomeOfEveryWord. -/
theorem test_hyp_word_at_pc (c : PredReg) (n : Nat) : (launch c n).WordAtPc 0xA1402000#32 := ⟨0, rfl, by decide, rfl⟩

theorem test_hyp_StepRunsDecodedInstruction :
    (launch 0x8002 32).WordAtPc 0xA1402000#32 ∧ decode 0xA1402000#32 = .ok e1 := ⟨test_hyp_word_at_pc _ _, by decide⟩

theorem test_hyp_DecodeOutcome_absent :
    (0xA1402000#32 &&& 0xFFF0E008#32 = 0xA1402000#32) ∧
      ({ launch 0 0 with cfg := { Config.default with featSme2 := false } } : State).WordAtPc 0xA1402000#32 ∧
      ({ launch 0 0 with cfg := { Config.default with featSme2 := false } } : State).cfg.featSme2 = false :=
  ⟨by decide, ⟨0, rfl, by decide, rfl⟩, rfl⟩

theorem test_hyp_DecodeOutcome_four :
    (0xA147BFD3#32 &&& 0xFFF0E00C#32 = 0xA140A000#32) ∧
      ({ launch 0 0 with text := [0xA147BFD3#32] } : State).WordAtPc 0xA147BFD3#32 ∧ (launch 0 0).cfg.featSme2 = true :=
  ⟨by decide, ⟨0, rfl, by decide, rfl⟩, rfl⟩

theorem test_hyp_DecodeOutcome_outside :
    ¬ (0xA1402008#32 &&& 0xFFF0E008#32 = 0xA1402000#32 ∨ 0xA1402008#32 &&& 0xFFF0E00C#32 = 0xA140A000#32) ∧
      ({ launch 0 0 with text := [0xA1402008#32] } : State).WordAtPc 0xA1402008#32 :=
  ⟨by decide, ⟨0, rfl, by decide, rfl⟩⟩

theorem test_hyp_StepStops_end :
    4 * (launch 0 0).text.length < 2 ^ 64 ∧ ({ launch 0 0 with pc := 4 } : State).isFinal := by decide

theorem test_hyp_StepStops_outside :
    (∀ k, k ≤ ({ launch 0 0 with pc := 8 } : State).text.length →
      ({ launch 0 0 with pc := 8 } : State).pc ≠ (launch 0 0).codeBase + BitVec.ofNat 64 (4 * k)) ∧
    ∀ k, k ≤ ({ launch 0 0 with pc := 2 } : State).text.length →
      ({ launch 0 0 with pc := 2 } : State).pc ≠ (launch 0 0).codeBase + BitVec.ofNat 64 (4 * k) := by decide

theorem test_hyp_well_formed : e1.WellFormed ∧ e8.WellFormed ∧ e10.WellFormed := by decide

theorem test_hyp_EncodeOfDecode : decode 0xA148B050#32 = .ok (.ld1hFour 16 12 (.x 2) (-8)) := by decide

theorem test_hyp_DecodeFields :
    0xA1473FD7#32 &&& 0xFFF0E008#32 = 0xA1402000#32 ∧ 0xA147BFD3#32 &&& 0xFFF0E00C#32 = 0xA140A000#32 := by decide

theorem test_hyp_UndefinedWithoutFeature :
    ({ State.reset with cfg := { Config.default with featSme2 := false } } : State).cfg.featSme2 = false := rfl

theorem test_hyp_TrapThenStreamingMode :
    State.reset.cfg.featSme2 = true ∧ ({ State.reset with smeTrapped := true } : State).smeTrapped = true ∧
      State.reset.smeTrapped = false ∧ ({ State.reset with pstateSM := false } : State).pstateSM = false := by decide

theorem test_hyp_SpAlignmentFaultExactly :
    (launch 0x8002 32).Enabled ∧ ({ launch 0x8002 32 with sp := 0x1008 } : State).Enabled ∧
      ({ launch 0x8002 32 with sp := 0x1008 } : State).sp.toNat % 16 ≠ 0 ∧
      elementActive e8 { launch 0x8002 32 with sp := 0x1008 } 0 = true := by decide +kernel

theorem test_hyp_CompletesExactlyWhen :
    (launch 0x8002 32).Enabled ∧ ActiveReadable e1 (launch 0x8002 32) ∧ e1.base ≠ .sp := by decide +kernel

theorem test_hyp_LoadTwoCompletes : e1.WellFormed ∧ LaunchOk e1 (launch 0x8002 32) := by decide +kernel

theorem test_hyp_LoadTwoCompletes_sp : e8.WellFormed ∧ LaunchOk e8 (launch 0x0016 10) := by decide +kernel

theorem test_hyp_LoadFourCompletes : e10.WellFormed ∧ LaunchOk e10 (launch 0x8002 64) := by decide +kernel

/-- For FrameOfLoad, OldDestinationsIgnored and BigEndianSwapsWithinHalfwords. -/
theorem test_hyp_completes :
    (∃ t, exec e1 (launch 0x8002 32) = .next t) ∧ ∃ t, exec e10 (launch 0x0016 10) = .next t :=
  ⟨exists_next (by decide +kernel), exists_next (by decide +kernel)⟩

theorem test_hyp_NoActiveElementWritesZeros :
    (launch 0 0).Enabled ∧ ∀ k, k < elementCount e8 (launch 0 0) → elementActive e8 (launch 0 0) k = false := by
  decide +kernel

theorem test_hyp_NoActiveElementWritesZeros_misaligned :
    ({ launch 0 0 with sp := 0x1008 } : State).Enabled ∧
      (∀ k, k < elementCount e8 { launch 0 0 with sp := 0x1008 } →
        elementActive e8 { launch 0 0 with sp := 0x1008 } k = false) ∧
      e8.base = .sp ∧ (launch 0 0).spAlignCheck = true ∧ ({ launch 0 0 with sp := 0x1008 } : State).sp.toNat % 16 ≠ 0 := by
  decide +kernel

theorem test_hyp_CounterActiveElements :
    2 * 31 < 64 ∧ 64 ≤ Config.default.vl.pl * 4 ∧
      ∀ e ∈ Config.default.counterTable, e.counter = 0x0052#16 → e.width ≠ 64 := by decide

/-- The same in a configuration that lists a mask, for another width. -/
theorem test_hyp_CounterActiveElements_listed :
    let cfg := { Config.default with counterTable := [{ counter := 0x0052, width := 32, mask := 0 }] }
    ∀ e ∈ cfg.counterTable, e.counter = 0x0052#16 → e.width ≠ 64 := by decide

/-- For CounterToPredicateIsAnyFunction: the two widths at the ends of the range of VL. -/
theorem test_hyp_CounterToPredicateIsAnyFunction :
    32 = VectorLength.vl128.pl * 2 ∧ 1024 = VectorLength.vl2048.pl * 4 := by decide

/-- V20: bits above 15 differ and the low 16 agree. -/
theorem test_hyp_OnlyLowSixteenPredicateBits :
    (((launch 0xDEADBEEF0016 32).p)[e1.pn]).extractLsb' 0 16 = ((launch 0x0016 32).readP e1.pn).extractLsb' 0 16 := by decide

/-- V13: the memory beyond the active elements is taken away. -/
theorem test_hyp_InactiveElementsNeverAccessed :
    ∀ k, k < elementCount e1 (launch 0x0022 32) → elementActive e1 (launch 0x0022 32) k = true →
      ({ launch 0x0022 32 with mem := patternA 0x1000 16 } : State).byteAt (elementAddr e1 (launch 0x0022 32) k) =
          (launch 0x0022 32).byteAt (elementAddr e1 (launch 0x0022 32) k) ∧
        ({ launch 0x0022 32 with mem := patternA 0x1000 16 } : State).byteAt (elementAddr e1 (launch 0x0022 32) k + 1) =
          (launch 0x0022 32).byteAt (elementAddr e1 (launch 0x0022 32) k + 1) := by decide +kernel

theorem test_hyp_InactiveElementsNeverAccessed_zero :
    e1.WellFormed ∧ (∃ t, exec e1 (launch 0x0022 16) = .next t) ∧ 1 < e1.nreg ∧ 0 < (launch 0x0022 16).cfg.vl.elements ∧
      elementActive e1 (launch 0x0022 16) (1 * (launch 0x0022 16).cfg.vl.elements + 0) = false :=
  ⟨by decide, exists_next (by decide +kernel), by decide, by decide, by decide +kernel⟩

theorem test_hyp_InactiveElementsNeverAccessed_trap :
    (∀ k, k < elementCount e1 { launch 0 0 with smeTrapped := true } →
      elementActive e1 { launch 0 0 with smeTrapped := true } k = false) ∧
      (launch 0 0).cfg.featSme2 = true ∧ ({ launch 0 0 with smeTrapped := true } : State).smeTrapped = true := by
  decide +kernel

/-- F10: an active element raises past the checks. -/
theorem test_hyp_InactiveElementsNeverAccessed_fault :
    (launch 0x0026 16).Enabled ∧ exec e1 (launch 0x0026 16) = .fault (.dataAbort 0x1010) :=
  ⟨by decide, fault_of (by decide +kernel)⟩

/-- R48: every inactive element is at an odd and unreadable address under `align_check`, and the load completes. -/
theorem test_hyp_InactiveElementsNeverAccessed_odd :
    let s := { launch 0 0 with x := State.reset.x.set 0 0x1001, cfg := { Config.default with alignCheck := true } }
    s.Enabled ∧ SpUsable e1 s ∧
      (∀ k, k < elementCount e1 s → elementActive e1 s k = true → ElementReadable e1 s k) ∧
      (elementAddr e1 s 0).getLsbD 0 = true ∧ s.readable (elementAddr e1 s 0) = false ∧
      (nextOf (exec e1 s)).isSome = true := by decide +kernel

theorem test_hyp_OnlyBaseRegisterRead :
    e1.base = .x 0 ∧ ((launch 0x8002 32).x.set 1 7)[(0 : Fin 31)] = (launch 0x8002 32).readX 0 ∧ e8.base = .sp := by decide

theorem test_hyp_DrawDoesNotInfluenceCompletion :
    (∃ t, exec e8 (launch 0 0) = .next t) ∧ ∃ t, exec e8 { launch 0 0 with draws := 5 } = .next t :=
  ⟨exists_next (by decide +kernel), exists_next (by decide +kernel)⟩

/-- F10: element 8 has no readable byte; for ReportedFaultIsAnActiveElements and DataAbortNamesUnreadableByte. -/
theorem test_hyp_DataAbort :
    (launch 0x0026 16).Enabled ∧ SpUsable e1 (launch 0x0026 16) ∧ (launch 0x0026 16).cfg.alignCheck = false ∧
      8 < elementCount e1 (launch 0x0026 16) ∧ elementActive e1 (launch 0x0026 16) 8 = true ∧
      (launch 0x0026 16).readable (elementAddr e1 (launch 0x0026 16) 8) = false ∧
      memRead (launch 0x0026 16) (elementAddr e1 (launch 0x0026 16) 8) (accessDescriptor e1.base) =
        .error (.dataAbort 0x1010) := by decide +kernel

/-- F10 and F11: the first byte, and the second byte, of the one element that raises. -/
theorem test_hyp_DataAbort_raised :
    exec e1 (launch 0x0026 16) = .fault (.dataAbort 0x1010) ∧ exec e1 (launch 0x0022 15) = .fault (.dataAbort 0x100F) :=
  ⟨fault_of (by decide +kernel), fault_of (by decide +kernel)⟩

/-- F9 with one active element: an odd base under `align_check`. -/
theorem test_hyp_AlignmentFault :
    let s := { launch 0x0006 32 with
      x := State.reset.x.set 0 0x1001, cfg := { Config.default with alignCheck := true } }
    s.Enabled ∧ SpUsable e1 s ∧ s.cfg.alignCheck = true ∧ 0 < elementCount e1 s ∧ elementActive e1 s 0 = true ∧
      (elementAddr e1 s 0).getLsbD 0 = true ∧ faultOf (exec e1 s) = some (.alignmentFault 0x1001) := by decide +kernel

theorem test_hyp_MemReadCases :
    ({ launch 0 16 with cfg := { Config.default with alignCheck := true } } : State).cfg.alignCheck = true ∧
      (0x1001#64).getLsbD 0 = true ∧ (launch 0 16).cfg.alignCheck = false ∧ (launch 0 16).readable 0x1010 = false ∧
      (launch 0 16).readable 0x100F = true ∧ (launch 0 16).readable (0x100F + 1) = false ∧
      (launch 0 16).byteAt 0x100E = some 14 ∧ (launch 0 16).byteAt (0x100E + 1) = some 15 := by decide

/-- For DisplacementRange: the ends of the range are reached (R10). -/
theorem test_hyp_DisplacementRange :
    (Instr.ld1hFour 0 8 .sp (-8)).WellFormed ∧ displacement .vl2048 4 (-8) = -8192 ∧ displacement .vl2048 2 7 = 3584 := by
  decide

theorem test_hyp_StepKeepsInvariant : (launch 0x8002 32).Inv ∧ (nextOf (step (launch 0x8002 32))).isSome = true := by
  decide +kernel

theorem test_hyp_RunOfOneStep :
    4 * (launch 0x8002 32).text.length < 2 ^ 64 ∧ ∃ t, Host.Core.run Sys2Proof.core 1 (launch 0x8002 32) = .next t :=
  ⟨by decide, exists_next (by decide +kernel)⟩

/-- For OperationAgreesWithExec: the source's loops complete with the instruction's state (V1), and raise (F10). -/
theorem test_hyp_OperationAgrees :
    (match operation e1 (launch 0x8002 32) with
      | .ok t => nextOf (exec e1 (launch 0x8002 32)) == some t
      | .error _ => false) = true ∧
    (match operation e1 (launch 0x0026 16) with
      | .ok _ => false
      | .error f => f == .dataAbort 0x1010) = true := by decide +kernel

end Sys2Proof.Tests
end

/-! # The memory family: what the read primitive answers, what the load takes from memory, and that a run keeps memory -/

namespace Sys2Proof.Machine

/-! ## The read primitive -/

/-- `readable` fails exactly when the byte has no value. -/
theorem State.readable_eq_false_iff {s : State} {a : Word64} : s.readable a = false ↔ s.byteAt a = none := by
  simp [State.readable]

/-- Settles O30: each clause is one disjunct of what `memRead` can answer. -/
theorem memReadCases : Obligations.MemReadCases := by
  intro s a acc
  refine ⟨fun hal hodd => memRead_eq_error_iff.mpr (.inl ⟨by simp [hal, hodd], rfl⟩), fun heven => ?_⟩
  have hpass : (s.cfg.alignCheck && a.getLsbD 0) = false := Bool.and_eq_false_iff.mpr heven
  refine ⟨fun h0 => ?_, fun h0 h1 => ?_, fun b0 b1 h0 h1 => ?_⟩
  · exact memRead_eq_error_iff.mpr (.inr (.inl ⟨hpass, State.readable_eq_false_iff.mp h0, rfl⟩))
  · exact memRead_eq_error_iff.mpr
      (.inr (.inr ⟨hpass, State.readable_iff.mp h0, State.readable_eq_false_iff.mp h1, rfl⟩))
  · exact memRead_eq_ok_iff.mpr ⟨hpass, b0, b1, h0, h1, rfl⟩

/-- Settles O33: the descriptor is the tuple of R45 by definition, and no operation it is given to looks at it. -/
theorem accessDescriptorWithoutEffect : Obligations.AccessDescriptorWithoutEffect :=
  ⟨fun _ => rfl, fun _ _ _ _ _ _ => ⟨memRead_congr rfl rfl rfl, rfl, rfl⟩⟩

/-! ## What a step and a run leave unchanged -/

/-- A step that answers a next state changes the Z registers, pc and the count of draws alone, and pc by 4. -/
theorem step_next_eq {s t : State} (h : step s = .next t) :
    t = { s with z := t.z, pc := s.pc + 4, draws := t.draws } := by
  obtain ⟨_, i, _, _, hexec⟩ := step_eq_next_iff.mp h
  obtain ⟨_, _, rfl⟩ := exec_eq_next_iff.mp hexec
  rw [completeLoad_eq]

/-- A run of `k + 1` steps, of any machine, is one step and a run of `k`. -/
theorem run_succ_eq_next_iff {M : Host.Core} {k : Nat} {s t : M.State} :
    M.run (k + 1) s = .next t ↔ ∃ u, M.step s = .next u ∧ M.run k u = .next t := by
  rw [Host.Core.run]
  cases M.step s <;> simp

/-- A run of k steps changes the Z registers, pc and the count of draws alone, and pc by 4k. -/
theorem run_next_eq {k : Nat} {s t : State} (h : Host.Core.run core k s = .next t) :
    t = { s with z := t.z, pc := s.pc + BitVec.ofNat 64 (4 * k), draws := t.draws } := by
  induction k generalizing s with
  | zero =>
    obtain rfl := Host.Outcome.next.inj h
    simp
  | succ k ih =>
    obtain ⟨u, hstep, hrun⟩ := run_succ_eq_next_iff.mp h
    have hpc : s.pc + 4 + BitVec.ofNat 64 (4 * k) = s.pc + BitVec.ofNat 64 (4 * (k + 1)) := by
      rw [Nat.mul_succ, Nat.add_comm, BitVec.ofNat_add, BitVec.add_assoc]
      rfl
    have ht := ih hrun
    rw [step_next_eq hstep] at ht
    rw [← hpc]
    exact ht

/-- Settles O37, from what a run leaves unchanged. -/
theorem runKeepsMemoryInProgramOrder : Obligations.RunKeepsMemoryInProgramOrder := by
  intro k s t h
  rw [run_next_eq h]
  exact ⟨rfl, fun _ => rfl, rfl, rfl, rfl, rfl⟩

/-! ## Executions of two states compared -/

/-- A change of state that no check and no read sees, and that the completion passes on, is passed on by the instruction. -/
theorem exec_eq_mapNext {i : Instr} {s : State} {f : State → State} (hearly : earlyFault i (f s) = earlyFault i s)
    (hload : loadElements i (f s) = loadElements i s)
    (hdone : ∀ values, completeLoad i (f s) values = f (completeLoad i s values)) :
    exec i (f s) = mapNext f (exec i s) := by
  simp only [exec_eq, ld1hStrided, hearly, hload, hdone]
  cases earlyFault i s with
  | some e => rfl
  | none => cases loadElements i s <;> rfl

/-- Step S7 depends on the state through the element reads and, for the fault reported, the count of draws. -/
theorem loadElements_congr {i : Instr} {s s' : State} (hcfg : s'.cfg = s.cfg) (hdraws : s'.draws = s.draws)
    (hread : ∀ k < elementCount i s, elementRead i s' k = elementRead i s k) : loadElements i s' = loadElements i s := by
  have hcount : elementCount i s' = elementCount i s := by simp only [elementCount, hcfg]
  have hfaults : elementFaults i s' = elementFaults i s := by
    rw [elementFaults, elementFaults, hcount]
    exact List.filterMap_congr fun k hk => by rw [hread k (List.mem_range.mp hk)]
  have hvalues : elementValues i s' = elementValues i s := by
    rw [elementValues, elementValues, hcount]
    exact List.map_congr_left fun k hk => by rw [hread k (List.mem_range.mp hk)]
  have hreport : reportFault s' = reportFault s := by
    funext f others
    simp only [reportFault, hdraws]
  simp only [loadElements, hfaults, hvalues, hreport]

/-- What the register writes leave in the Z registers depends on the old Z registers and the values alone. -/
theorem writeDestinations_z_congr {t : Fin 32} {tstride elements : Nat} {values : List Half} {n : Nat} {s s' : State}
    (hz : s'.z = s.z) :
    (writeDestinations t tstride elements values n s').z = (writeDestinations t tstride elements values n s).z := by
  induction n with
  | zero => exact hz
  | succ n ih => simp only [writeDestinations, State.writeZ_z, ih]

/-- The Z registers after completion depend on those before, the vector length and the values alone. -/
theorem completeLoad_z_congr {i : Instr} {s s' : State} {values : List Half} (hcfg : s'.cfg = s.cfg) (hz : s'.z = s.z) :
    (completeLoad i s' values).z = (completeLoad i s values).z := by
  have hdraw : (drawStep i s').z = (drawStep i s).z := by rw [drawStep_eq i s', drawStep_eq i s]; exact hz
  simp only [completeLoad, State.advancePc_z, hcfg]
  exact writeDestinations_z_congr hdraw

/-- The count of draws left depends on the count before and on whether some element is active alone (R87). -/
theorem drawStep_draws_congr {i : Instr} {s s' : State} (hdraws : s'.draws = s.draws)
    (hany : anyActive i s' = anyActive i s) : (drawStep i s').draws = (drawStep i s).draws := by
  unfold drawStep
  cases i.base with
  | x n => exact hdraws
  | sp => cases ha : anyActive i s <;> simp [hany, ha, hdraws]

/-- The completion passes another memory on. -/
theorem completeLoad_withMem (i : Instr) (s : State) (m : Memory) (values : List Half) :
    completeLoad i { s with mem := m } values = { completeLoad i s values with mem := m } := by
  have hz : (completeLoad i { s with mem := m } values).z = (completeLoad i s values).z := completeLoad_z_congr rfl rfl
  have hdraws : (drawStep i { s with mem := m }).draws = (drawStep i s).draws := drawStep_draws_congr rfl rfl
  rw [completeLoad_eq, hz, hdraws, completeLoad_eq i s values]

/-! ## Inactive elements -/

/-- An inactive element is sixteen zeros, with no access (R48). -/
theorem elementRead_of_inactive {i : Instr} {s : State} {k : Nat} (h : elementActive i s k = false) :
    elementRead i s k = .ok 0 := by
  simp [elementRead, h]

/-- An active element is the read at its address. -/
theorem elementRead_of_active {i : Instr} {s : State} {k : Nat} (h : elementActive i s k = true) :
    elementRead i s k = memRead s (elementAddr i s k) (accessDescriptor i.base) := by
  simp [elementRead, h]

/-- The read of an element sees of memory its two bytes, and those only if it is active. -/
theorem elementRead_withMem {i : Instr} {s : State} {m : Memory} {k : Nat}
    (h : elementActive i s k = true →
      ({ s with mem := m } : State).byteAt (elementAddr i s k) = s.byteAt (elementAddr i s k) ∧
      ({ s with mem := m } : State).byteAt (elementAddr i s k + 1) = s.byteAt (elementAddr i s k + 1)) :
    elementRead i { s with mem := m } k = elementRead i s k := by
  have hact : elementActive i { s with mem := m } k = elementActive i s k := rfl
  cases ha : elementActive i s k with
  | false => rw [elementRead_of_inactive (hact.trans ha), elementRead_of_inactive ha]
  | true =>
    rw [elementRead_of_active (hact.trans ha), elementRead_of_active ha]
    exact memRead_congr rfl (h ha).1 (h ha).2

/-- Only the bytes of the active elements have an effect (R48). -/
theorem exec_withMem {i : Instr} {s : State} {m : Memory}
    (h : ∀ k < elementCount i s, elementActive i s k = true →
      ({ s with mem := m } : State).byteAt (elementAddr i s k) = s.byteAt (elementAddr i s k) ∧
      ({ s with mem := m } : State).byteAt (elementAddr i s k + 1) = s.byteAt (elementAddr i s k + 1)) :
    exec i { s with mem := m } = mapNext (fun t => { t with mem := m }) (exec i s) :=
  exec_eq_mapNext (f := fun t => { t with mem := m }) rfl
    (loadElements_congr rfl rfl fun k hk => elementRead_withMem (h k hk)) (completeLoad_withMem i s m)

/-- Element e of the r-th register is one of the elements of the list. -/
theorem element_lt_elementCount {i : Instr} {s : State} {r e : Nat} (hr : r < i.nreg) (he : e < s.cfg.vl.elements) :
    r * s.cfg.vl.elements + e < elementCount i s :=
  calc r * s.cfg.vl.elements + e < (r + 1) * s.cfg.vl.elements := by rw [Nat.succ_mul]; omega
    _ ≤ i.nreg * s.cfg.vl.elements := Nat.mul_le_mul_right _ hr

/-- Element e of the r-th destination after a completed load is what element `r * elements + e` read. -/
theorem extract_readZ_of_exec {i : Instr} {s t : State} {r e : Nat} (hwf : i.WellFormed) (hexec : exec i s = .next t)
    (hr : r < i.nreg) (he : e < s.cfg.vl.elements) :
    (t.readZ (destReg i.zt1 i.tstride r)).extractLsb' (16 * e) 16 =
      readHalf (elementRead i s (r * s.cfg.vl.elements + e)) := by
  obtain ⟨_, _, rfl⟩ := exec_eq_next_iff.mp hexec
  rw [readZ_completeLoad hwf s _ hr, extract_registerValue he (elements_le_128 _),
    getD_elementValues (element_lt_elementCount hr he)]

/-- A completed load leaves memory as before (R92). -/
theorem exec_next_mem {i : Instr} {s t : State} (h : exec i s = .next t) : t.mem = s.mem := by
  obtain ⟨_, _, rfl⟩ := exec_eq_next_iff.mp h
  rw [completeLoad_eq]

/-! ## The faults -/

/-- A check that raises is the outcome. -/
theorem exec_of_earlyFault {i : Instr} {s : State} {f : Fault} (h : earlyFault i s = some f) : exec i s = .fault f := by
  rw [exec_eq, ld1hStrided, h]
  rfl

/-- With the feature, an untrapped access and the mode on, the SP step is the one check left. -/
theorem earlyFault_of_enabled {i : Instr} {s : State} (h : s.Enabled) : earlyFault i s = spAlignmentStep i s := by
  obtain ⟨hfeat, htrap, hsm⟩ := h
  rw [earlyFault, checkFeature_eq_none_iff.mpr hfeat, checkStreamingSVEEnabled_eq_none_iff.mpr ⟨htrap, hsm⟩]
  rfl

/-- The SP step raises no other fault. -/
theorem eq_of_spAlignmentStep_eq_some {i : Instr} {s : State} {f : Fault} (h : spAlignmentStep i s = some f) :
    f = .spAlignmentFault := by
  rw [spAlignmentStep_eq] at h
  split at h
  · exact (Option.some.inj h).symm
  · cases h

/-- Where SP is usable the SP step passes, whatever the draw is (R87, R121). -/
theorem spAlignmentStep_of_spUsable {i : Instr} {s : State} (h : SpUsable i s) : spAlignmentStep i s = none := by
  rw [spAlignmentStep_eq, if_neg]
  rintro ⟨hbase, hfails, _⟩
  obtain ⟨hcheck, hmis⟩ := Bool.and_eq_true_iff.mp hfails
  exact spMisaligned_iff.mp hmis (h hbase hcheck)

/-- Past the control checks every fault is that of the SP check or of an active element's read (R48, R106). -/
theorem exec_fault_of_enabled {i : Instr} {s : State} {f : Fault} (hen : s.Enabled) (h : exec i s = .fault f) :
    f = .spAlignmentFault ∨ ∃ k < elementCount i s, elementActive i s k = true ∧
      memRead s (elementAddr i s k) (accessDescriptor i.base) = .error f := by
  rw [exec_eq] at h
  rcases ld1hStrided_cases i s with ⟨g, hearly, hg⟩ | ⟨_, g, hload, hg⟩ | ⟨_, _, hg⟩
  · obtain rfl : g = f := by simpa [hg] using h
    rw [earlyFault_of_enabled hen] at hearly
    exact .inl (eq_of_spAlignmentStep_eq_some hearly)
  · obtain rfl : g = f := by simpa [hg] using h
    exact .inr (loadElements_eq_error hload)
  · simp [hg] at h

/-- The read of a readable element answers a halfword. -/
theorem memRead_of_elementReadable {i : Instr} {s : State} {k : Nat} (h : ElementReadable i s k) (acc : AccessDescriptor) :
    ∃ v, memRead s (elementAddr i s k) acc = .ok v := by
  obtain ⟨h0, h1, heven⟩ := h
  obtain ⟨b0, hb0⟩ := State.readable_iff.mp h0
  obtain ⟨b1, hb1⟩ := State.readable_iff.mp h1
  have hpass : (s.cfg.alignCheck && (elementAddr i s k).getLsbD 0) = false := by
    cases hc : s.cfg.alignCheck with
    | false => rfl
    | true => exact heven hc
  exact ⟨_, memRead_eq_ok_iff.mpr ⟨hpass, b0, b1, hb0, hb1, rfl⟩⟩

/-- The launch premises of R121 suffice: the instruction completes. -/
theorem exec_next_of_launchOk {i : Instr} {s : State} (h : LaunchOk i s) : ∃ t, exec i s = .next t := by
  obtain ⟨hen, hsp, hread⟩ := h
  have hearly : earlyFault i s = none := by rw [earlyFault_of_enabled hen, spAlignmentStep_of_spUsable hsp]
  have hload : loadElements i s = .ok (elementValues i s) :=
    loadElements_eq_ok_iff.mpr ⟨rfl, fun k hk ha => memRead_of_elementReadable (hread k hk ha) _⟩
  exact ⟨_, exec_eq_next_iff.mpr ⟨hearly, hload, rfl⟩⟩

/-- A trapped access raises before anything looks at the predicate, SP or memory (R83, R102). -/
theorem exec_of_smeTrapped {i : Instr} {s : State} (hfeat : s.cfg.featSme2 = true) (htrap : s.smeTrapped = true) :
    exec i s = .fault .smeAccessTrap := by
  have hcheck : checkStreamingSVEEnabled s = some .smeAccessTrap := if_pos htrap
  exact exec_of_earlyFault (by rw [earlyFault, checkFeature_eq_none_iff.mpr hfeat, hcheck]; rfl)

/-- Settles O23, clause by clause: noninterference of inactive bytes, zeros and the kept memory, the faults, completion, the
trap. -/
theorem inactiveElementsNeverAccessed : Obligations.InactiveElementsNeverAccessed := by
  refine ⟨fun i s m => exec_withMem, fun i s t r e hwf hexec hr he hin => ⟨?_, exec_next_mem hexec⟩,
    fun i s f => exec_fault_of_enabled, fun i s hen hsp hread => exec_next_of_launchOk ⟨hen, hsp, hread⟩,
    fun i s _ => exec_of_smeTrapped⟩
  rw [extract_readZ_of_exec hwf hexec hr he, elementRead_of_inactive hin]
  rfl

end Sys2Proof.Machine

/-! # The encoding family: what the decoder answers for every word, and what the encoder makes of its answer -/

namespace Sys2Proof

/-! ## The operands of a word, as numbers (R63, R64) -/

/-- The decoded base has the number the field Rn holds; 31 is SP. -/
theorem number_decodeBase (w : InsnWord) : (decodeBase w).number = (w.extractLsb' 5 5).toNat := by
  unfold decodeBase
  split
  · rfl
  · have hlt := (w.extractLsb' 5 5).isLt
    simp only [Base.number]
    omega

/-- Two fields side by side are a number of two digits. -/
theorem toNat_append_eq_add {m n : Nat} (x : BitVec m) (y : BitVec n) : (x ++ y).toNat = 2 ^ n * x.toNat + y.toNat := by
  rw [BitVec.toNat_append, ← Nat.shiftLeft_add_eq_or_of_lt y.isLt, Nat.shiftLeft_eq, Nat.mul_comm]

/-- The fixed bit above PNg adds 8 to it. -/
theorem val_decodePn (w : InsnWord) : (decodePn w).val = 8 + (w.extractLsb' 10 3).toNat :=
  toNat_append_eq_add 1#1 (w.extractLsb' 10 3)

theorem val_decodeZtTwo (w : InsnWord) :
    (decodeZtTwo w).val = 16 * (w.extractLsb' 4 1).toNat + (w.extractLsb' 0 3).toNat := by
  refine (toNat_append_eq_add (w.extractLsb' 4 1 ++ 0#1) (w.extractLsb' 0 3)).trans ?_
  rw [toNat_append_eq_add, BitVec.toNat_zero]
  omega

theorem val_decodeZtFour (w : InsnWord) :
    (decodeZtFour w).val = 16 * (w.extractLsb' 4 1).toNat + (w.extractLsb' 0 2).toNat := by
  refine (toNat_append_eq_add (w.extractLsb' 4 1 ++ 0#2) (w.extractLsb' 0 2)).trans ?_
  rw [toNat_append_eq_add, BitVec.toNat_zero]
  omega

/-! ## The encoder gives each field back -/

theorem encodeOffset_decodeOffset (w : InsnWord) : encodeOffset (decodeOffset w) = w.extractLsb' 16 4 :=
  BitVec.ofInt_toInt

theorem encodeBase_decodeBase (w : InsnWord) : encodeBase (decodeBase w) = w.extractLsb' 5 5 := by
  rw [encodeBase, number_decodeBase, BitVec.ofNat_toNat, BitVec.setWidth_eq]

theorem encodePn_decodePn (w : InsnWord) : encodePn (decodePn w) = w.extractLsb' 10 3 := by
  have hlt := (w.extractLsb' 10 3).isLt
  apply BitVec.eq_of_toNat_eq
  rw [encodePn, val_decodePn, BitVec.toNat_ofNat]
  omega

/-- The field T is what stands above the low four bits of the first destination's number. -/
theorem encodeT_eq {t : Fin 32} {T : BitVec 1} {low : Nat} (ht : t.val = 16 * T.toNat + low) (hlow : low < 16) :
    encodeT t = T := by
  have hT := T.isLt
  apply BitVec.eq_of_toNat_eq
  rw [encodeT, ht, BitVec.toNat_ofNat]
  omega

theorem encodeT_decodeZtTwo (w : InsnWord) : encodeT (decodeZtTwo w) = w.extractLsb' 4 1 :=
  encodeT_eq (val_decodeZtTwo w) ((w.extractLsb' 0 3).isLt.trans (by decide))

theorem encodeT_decodeZtFour (w : InsnWord) : encodeT (decodeZtFour w) = w.extractLsb' 4 1 :=
  encodeT_eq (val_decodeZtFour w) ((w.extractLsb' 0 2).isLt.trans (by decide))

theorem ofNat_decodeZtTwo (w : InsnWord) : BitVec.ofNat 3 (decodeZtTwo w).val = w.extractLsb' 0 3 := by
  have hZt := (w.extractLsb' 0 3).isLt
  apply BitVec.eq_of_toNat_eq
  rw [val_decodeZtTwo, BitVec.toNat_ofNat]
  omega

theorem ofNat_decodeZtFour (w : InsnWord) : BitVec.ofNat 2 (decodeZtFour w).val = w.extractLsb' 0 2 := by
  have hZt := (w.extractLsb' 0 2).isLt
  apply BitVec.eq_of_toNat_eq
  rw [val_decodeZtFour, BitVec.toNat_ofNat]
  omega

/-! ## The fixed bits of a row (R66) -/

theorem rowMatches_iff {r : OpcodeRow} {w : InsnWord} : rowMatches r w = true ↔ w &&& r.mask = r.pattern := beq_iff_eq

/-- A field that the mask of a row covers holds what the row's pattern holds there. -/
theorem extractLsb'_of_rowMatches {r : OpcodeRow} {w : InsnWord} {start len : Nat} (h : rowMatches r w = true)
    (hmask : r.mask.extractLsb' start len = BitVec.allOnes len) :
    w.extractLsb' start len = r.pattern.extractLsb' start len := by
  rw [← rowMatches_iff.mp h, BitVec.extractLsb'_and, hmask, BitVec.and_allOnes]

/-- No word has the fixed bits of both rows: bit 15 tells them apart. -/
theorem not_rowMatches_rowTwo_of_rowFour {w : InsnWord} (h : rowMatches rowFour w = true) : ¬ rowMatches rowTwo w = true := by
  intro h'
  have hbit := (extractLsb'_of_rowMatches (start := 15) (len := 1) h' (by decide)).symm.trans
    (extractLsb'_of_rowMatches h (by decide))
  exact absurd hbit (by decide)

/-! ## What the decoder answers (R67) -/

/-- The instruction of a word of the first row (R63). -/
def instrTwo (w : InsnWord) : Instr := .ld1hTwo (decodeZtTwo w) (decodePn w) (decodeBase w) (decodeOffset w)

/-- The instruction of a word of the second row (R64). -/
def instrFour (w : InsnWord) : Instr := .ld1hFour (decodeZtFour w) (decodePn w) (decodeBase w) (decodeOffset w)

theorem decode_of_rowTwo {w : InsnWord} (h : rowMatches rowTwo w = true) : decode w = .ok (instrTwo w) := if_pos h

theorem decode_of_rowFour {w : InsnWord} (h : rowMatches rowFour w = true) : decode w = .ok (instrFour w) := by
  rw [decode, if_neg (not_rowMatches_rowTwo_of_rowFour h), if_pos h, instrFour]

theorem decode_of_no_row {w : InsnWord} (h : ¬ (rowMatches rowTwo w = true ∨ rowMatches rowFour w = true)) :
    decode w = .error (.notInSpec w) := by
  obtain ⟨hTwo, hFour⟩ := not_or.mp h
  rw [decode, if_neg hTwo, if_neg hFour]

/-- A decoded offset is a signed 4-bit number. -/
theorem decodeOffset_bounds (w : InsnWord) : -8 ≤ decodeOffset w ∧ decodeOffset w ≤ 7 :=
  ⟨BitVec.le_toInt _, Int.lt_add_one_iff.mp BitVec.toInt_lt⟩

theorem wellFormed_instrTwo (w : InsnWord) : (instrTwo w).WellFormed := by
  have hZt := (w.extractLsb' 0 3).isLt
  refine ⟨?_, ?_, decodeOffset_bounds w⟩
  · change (decodeZtTwo w).val % 16 < 8
    rw [val_decodeZtTwo]
    omega
  · exact Nat.le.intro (val_decodePn w).symm

theorem wellFormed_instrFour (w : InsnWord) : (instrFour w).WellFormed := by
  have hZt := (w.extractLsb' 0 2).isLt
  refine ⟨?_, ?_, decodeOffset_bounds w⟩
  · change (decodeZtFour w).val % 16 < 4
    rw [val_decodeZtFour]
    omega
  · exact Nat.le.intro (val_decodePn w).symm

/-! ## The word of a decoded instruction is the word it was decoded from (R66)

Each field the encoder writes is the one at its place in the word: an operand's by the lemmas above, a fixed one by the
row's pattern. Side by side, the fields are the word. -/

theorem encode_instrTwo {w : InsnWord} (h : rowMatches rowTwo w = true) : encode (instrTwo w) = w := by
  have h20 : w.extractLsb' 20 12 = 0b101000010100#12 := extractLsb'_of_rowMatches h (by decide)
  have h13 : w.extractLsb' 13 3 = 0b001#3 := extractLsb'_of_rowMatches h (by decide)
  have h3 : w.extractLsb' 3 1 = 0b0#1 := extractLsb'_of_rowMatches h (by decide)
  rw [instrTwo, encode, encodeOffset_decodeOffset, encodePn_decodePn, encodeBase_decodeBase, encodeT_decodeZtTwo,
    ofNat_decodeZtTwo, ← h20, ← h13, ← h3]
  iterate 7 rw [BitVec.extractLsb'_append_extractLsb'_eq_extractLsb' (by decide)]
  exact BitVec.extractLsb'_eq_self

theorem encode_instrFour {w : InsnWord} (h : rowMatches rowFour w = true) : encode (instrFour w) = w := by
  have h20 : w.extractLsb' 20 12 = 0b101000010100#12 := extractLsb'_of_rowMatches h (by decide)
  have h13 : w.extractLsb' 13 3 = 0b101#3 := extractLsb'_of_rowMatches h (by decide)
  have h2 : w.extractLsb' 2 2 = 0b00#2 := extractLsb'_of_rowMatches h (by decide)
  rw [instrFour, encode, encodeOffset_decodeOffset, encodePn_decodePn, encodeBase_decodeBase, encodeT_decodeZtFour,
    ofNat_decodeZtFour, ← h20, ← h13, ← h2]
  iterate 7 rw [BitVec.extractLsb'_append_extractLsb'_eq_extractLsb' (by decide)]
  exact BitVec.extractLsb'_eq_self

/-- A word of either row decodes to a well-formed instruction, of which it is the word. -/
theorem exists_decode_of_row {w : InsnWord} (h : rowMatches rowTwo w = true ∨ rowMatches rowFour w = true) :
    ∃ i, decode w = .ok i ∧ i.WellFormed ∧ encode i = w := by
  rcases h with hTwo | hFour
  · exact ⟨_, decode_of_rowTwo hTwo, wellFormed_instrTwo w, encode_instrTwo hTwo⟩
  · exact ⟨_, decode_of_rowFour hFour, wellFormed_instrFour w, encode_instrFour hFour⟩

/-! ## The field imm4 of an encoded instruction (R65) -/

/-- Bits 19:16 of the word of an instruction are its encoded offset. -/
theorem extractLsb'_imm4_encode (i : Instr) : (encode i).extractLsb' 16 4 = encodeOffset i.offset := by
  apply BitVec.eq_of_getLsbD_eq
  intro n hn
  rw [BitVec.getLsbD_extractLsb']
  cases i with
  | ld1hTwo t g b o =>
    rw [getLsbD_encode_two]
    interval_cases n <;> simp [Instr.offset]
  | ld1hFour t g b o =>
    rw [getLsbD_encode_four]
    interval_cases n <;> simp [Instr.offset]

/-- An offset in range is the two's complement value of its field. -/
theorem toInt_encodeOffset {o : Int} (h : -8 ≤ o ∧ o ≤ 7) : (encodeOffset o).toInt = o :=
  BitVec.toInt_ofInt_eq_self (by decide) h.1 (Int.lt_add_one_of_le h.2)

/-- The field is the offset modulo 16. -/
theorem toNat_encodeOffset (o : Int) : ((encodeOffset o).toNat : Int) = o % 16 := by
  rw [encodeOffset, BitVec.toNat_ofInt, Int.toNat_of_nonneg (Int.emod_nonneg _ (by decide))]
  rfl

/-- No list is empty (R63, R64). -/
theorem nreg_pos (i : Instr) : 0 < i.nreg := by cases i <;> exact Nat.succ_pos _

end Sys2Proof

namespace Sys2Proof.Machine

/-! ## The word at pc, fetched and executed -/

/-- The word bound to pc is the one fetched (R55, R124). -/
theorem State.WordAtPc.fetch_eq {s : State} {w : InsnWord} (h : s.WordAtPc w) : fetch s = .ok w := by
  obtain ⟨k, hpc, hk, hw⟩ := h
  have hoff : s.pcOffset = 4 * k := by
    rw [State.pcOffset, hpc, BitVec.add_comm, BitVec.add_sub_cancel, BitVec.toNat_ofNat, Nat.mod_eq_of_lt hk]
  rw [fetch_eq_ok_iff, hoff, Nat.mul_mod_right, Nat.mul_div_cancel_left k (by decide)]
  exact ⟨rfl, hw⟩

/-- Without the feature an instruction raises Undefined with its word, whatever its operands are (R101). -/
theorem exec_of_no_feature {i : Instr} {s : State} (h : s.cfg.featSme2 = false) :
    exec i s = .fault (.undefined (encode i)) := by
  have hcheck : checkFeature s i = some (.undefined (encode i)) := by simp [checkFeature, h]
  exact exec_of_earlyFault (by rw [earlyFault, hcheck]; rfl)

/-- Settles O2, from what the decoder answers for a word of either row and for a word of neither. -/
theorem decodeOutcomeOfEveryWord : Obligations.DecodeOutcomeOfEveryWord := by
  intro s w hpc inTable
  have hrow : inTable ↔ rowMatches rowTwo w = true ∨ rowMatches rowFour w = true :=
    or_congr (rowMatches_iff (r := rowTwo)).symm (rowMatches_iff (r := rowFour)).symm
  have hfetch := hpc.fetch_eq
  refine ⟨fun hin hfeat => ?_, fun hin _ => ?_, fun hout => ?_⟩
  · obtain ⟨i, hdecode, _, hencode⟩ := exists_decode_of_row (hrow.mp hin)
    rw [step_of_decode hfetch hdecode, exec_of_no_feature hfeat, hencode]
  · obtain ⟨i, hdecode, hwf, _⟩ := exists_decode_of_row (hrow.mp hin)
    exact ⟨i, hdecode, hwf, step_of_decode hfetch hdecode⟩
  · have hdecode := decode_of_no_row (mt hrow.mpr hout)
    exact ⟨hdecode, step_of_decode_error hfetch hdecode⟩

/-- Settles O6: the instruction is `instrTwo w`, and its destinations do not wrap. -/
theorem decodeFieldsTwo : Obligations.DecodeFieldsTwo := by
  intro w hbits
  have hrow : rowMatches rowTwo w = true := rowMatches_iff.mpr hbits
  have hdest : ∀ r < 2, (destReg (decodeZtTwo w) 8 r).val = (decodeZtTwo w).val + r * 8 :=
    fun _ => destReg_val (wellFormed_instrTwo w)
  have hrange : (decodeZtTwo w).val ≤ 7 ∨ 16 ≤ (decodeZtTwo w).val ∧ (decodeZtTwo w).val ≤ 23 := by
    have hd : (decodeZtTwo w).val % 16 < 8 := (wellFormed_instrTwo w).1
    have hlt := (decodeZtTwo w).isLt
    omega
  exact ⟨instrTwo w, decode_of_rowTwo hrow, rfl, rfl, number_decodeBase w, val_decodePn w, val_decodeZtTwo w, hrange, rfl,
    hdest 0 (by decide), hdest 1 (by decide), fun _ hfeat => by rw [exec_of_no_feature hfeat, encode_instrTwo hrow]⟩

/-- Settles O7: the instruction is `instrFour w`, and its destinations do not wrap. -/
theorem decodeFieldsFour : Obligations.DecodeFieldsFour := by
  intro w hbits
  have hrow : rowMatches rowFour w = true := rowMatches_iff.mpr hbits
  have hdest : ∀ r < 4, (destReg (decodeZtFour w) 4 r).val = (decodeZtFour w).val + r * 4 :=
    fun _ => destReg_val (wellFormed_instrFour w)
  have hrange : (decodeZtFour w).val ≤ 3 ∨ 16 ≤ (decodeZtFour w).val ∧ (decodeZtFour w).val ≤ 19 := by
    have hd : (decodeZtFour w).val % 16 < 4 := (wellFormed_instrFour w).1
    have hlt := (decodeZtFour w).isLt
    omega
  exact ⟨instrFour w, decode_of_rowFour hrow, rfl, rfl, number_decodeBase w, val_decodePn w, val_decodeZtFour w, hrange, rfl,
    hdest 0 (by decide), hdest 1 (by decide), hdest 2 (by decide), hdest 3 (by decide),
    fun _ hfeat => by rw [exec_of_no_feature hfeat, encode_instrFour hrow]⟩

/-! ## The assembler's immediate (R65) -/

/-- The line of an instruction has the immediate `nreg * offset`, written or, where it is 0, left out (R73). -/
theorem immediate_disassemble (i : Instr) : (disassemble i).immediate = i.nreg * i.offset := by
  unfold AsmLine.immediate disassemble
  split
  · rename_i hzero
    exact hzero.symm
  · rfl

/-- `MUL VL` stands for VL/8: the displacement is the immediate times it (R10, R47). -/
theorem displacement_eq (vl : VectorLength) (nreg : Nat) (offset : Int) :
    displacement vl nreg offset = nreg * offset * vl.pl := by
  rw [displacement, ← elements_mul_2]
  push_cast
  ring

/-- Settles O9: the field is the encoded offset, and the line's immediate is `nreg` of it. -/
theorem immediateIsOffsetTimesListLength : Obligations.ImmediateIsOffsetTimesListLength := by
  intro i hwf
  obtain ⟨_, _, hoffset⟩ := hwf
  have hnreg : 0 < (i.nreg : Int) := Int.natCast_pos.mpr (nreg_pos i)
  rw [extractLsb'_imm4_encode, immediate_disassemble]
  refine ⟨toInt_encodeOffset hoffset, rfl, ?_, ?_, ?_, fun l hl => ?_, fun vl => displacement_eq vl _ _⟩
  · rw [mul_comm]
    exact Int.mul_le_mul_of_nonneg_left hoffset.1 hnreg.le
  · rw [mul_comm 7]
    exact Int.mul_le_mul_of_nonneg_left hoffset.2 hnreg.le
  · rw [toNat_encodeOffset, Int.mul_ediv_cancel_left _ hnreg.ne']
  · rw [AsmLine.immediate, hl, Option.getD_none]

end Sys2Proof.Machine

/-! # The exceptions family: which exception each check and each element read raises, and when -/

namespace Sys2Proof.Machine

/-! ## The checks before the load -/

/-- An untrapped access outside Streaming SVE mode raises before anything looks at the predicate, SP or memory (R83, R102). -/
theorem exec_of_not_streaming {i : Instr} {s : State} (hfeat : s.cfg.featSme2 = true) (htrap : s.smeTrapped = false)
    (hmode : s.pstateSM = false) : exec i s = .fault .notStreaming := by
  have hcheck : checkStreamingSVEEnabled s = some .notStreaming := by simp [checkStreamingSVEEnabled, htrap, hmode]
  exact exec_of_earlyFault (by rw [earlyFault, checkFeature_eq_none_iff.mpr hfeat, hcheck]; rfl)

/-- Settles O12: the feature test is the first check. -/
theorem undefinedWithoutFeature : Obligations.UndefinedWithoutFeature := fun _ _ => exec_of_no_feature

/-- Settles O13: with the feature there, the two outcomes of CheckStreamingSVEEnabled other than its return. -/
theorem trapThenStreamingMode : Obligations.TrapThenStreamingMode :=
  fun _ _ hfeat => ⟨exec_of_smeTrapped hfeat, exec_of_not_streaming hfeat⟩

/-- The feature test raises no other fault (R101). -/
theorem eq_of_checkFeature_eq_some {i : Instr} {s : State} {f : Fault} (h : checkFeature s i = some f) :
    f = .undefined (encode i) := by
  unfold checkFeature at h
  split at h
  · cases h
  · exact (Option.some.inj h).symm

/-- CheckStreamingSVEEnabled raises no other fault (R102). -/
theorem eq_of_checkStreamingSVEEnabled_eq_some {s : State} {f : Fault} (h : checkStreamingSVEEnabled s = some f) :
    f = .smeAccessTrap ∨ f = .notStreaming := by
  unfold checkStreamingSVEEnabled at h
  split at h
  · exact .inl (Option.some.inj h).symm
  · split at h
    · cases h
    · exact .inr (Option.some.inj h).symm

/-- The checks before the load raise no other fault (R106). -/
theorem eq_of_earlyFault_eq_some {i : Instr} {s : State} {f : Fault} (h : earlyFault i s = some f) :
    f = .undefined (encode i) ∨ f = .smeAccessTrap ∨ f = .notStreaming ∨ f = .spAlignmentFault := by
  rw [earlyFault, Option.or_eq_some_iff, Option.or_eq_some_iff] at h
  rcases h with (hfeature | ⟨_, hmode⟩) | ⟨_, hsp⟩
  · exact .inl (eq_of_checkFeature_eq_some hfeature)
  · rcases eq_of_checkStreamingSVEEnabled_eq_some hmode with rfl | rfl <;> simp
  · exact .inr (.inr (.inr (eq_of_spAlignmentStep_eq_some hsp)))

/-! ## Where a fault comes from -/

/-- When an instruction raises, and what: a check, or past the checks the element reads. -/
theorem exec_eq_fault_iff {i : Instr} {s : State} {f : Fault} :
    exec i s = .fault f ↔ earlyFault i s = some f ∨ earlyFault i s = none ∧ loadElements i s = .error f := by
  rw [exec_eq]
  rcases ld1hStrided_cases i s with ⟨g, he, h⟩ | ⟨he, g, hl, h⟩ | ⟨he, hl, h⟩
  · simp [h, he]
  · simp [h, he, hl]
  · simp [h, he, hl]

/-- A fault that no check raises is that of an active element's read (R48). -/
theorem exists_read_of_exec_fault {i : Instr} {s : State} {f : Fault} (h : exec i s = .fault f)
    (hearly : earlyFault i s ≠ some f) :
    ∃ k < elementCount i s, elementActive i s k = true ∧
      memRead s (elementAddr i s k) (accessDescriptor i.base) = .error f := by
  obtain hcheck | ⟨_, hload⟩ := exec_eq_fault_iff.mp h
  · exact absurd hcheck hearly
  · exact loadElements_eq_error hload

/-- Where the checks pass and the read of an active element raises, the fault of such a read is the outcome (R49). -/
theorem exec_fault_of_read_error {i : Instr} {s : State} {k : Nat} {f : Fault} (hen : s.Enabled) (hsp : SpUsable i s)
    (hk : k < elementCount i s) (hact : elementActive i s k = true)
    (hread : memRead s (elementAddr i s k) (accessDescriptor i.base) = .error f) :
    ∃ g, exec i s = .fault g ∧ ∃ j < elementCount i s, elementActive i s j = true ∧
      memRead s (elementAddr i s j) (accessDescriptor i.base) = .error g := by
  have hearly : earlyFault i s = none := by rw [earlyFault_of_enabled hen, spAlignmentStep_of_spUsable hsp]
  cases hload : loadElements i s with
  | error g => exact ⟨g, exec_eq_fault_iff.mpr (.inr ⟨hearly, hload⟩), loadElements_eq_error hload⟩
  | ok values =>
    obtain ⟨_, hok⟩ := (loadElements_eq_ok_iff.mp hload).2 k hk hact
    rw [hread] at hok
    cases hok

/-! ## SPAlignmentFault (R103) -/

/-- The SP check would raise exactly where checking is enabled and SP is no multiple of 16 (R87). -/
theorem spCheckFails_iff {s : State} : spCheckFails s = true ↔ s.spAlignCheck = true ∧ s.sp.toNat % 16 ≠ 0 := by
  rw [spCheckFails, Bool.and_eq_true, spMisaligned_iff]

/-- The read primitive raises nothing but DataAbort and AlignmentFault (R41). -/
theorem memRead_ne_spAlignmentFault {s : State} {a : Word64} {acc : AccessDescriptor} :
    memRead s a acc ≠ .error .spAlignmentFault := by
  simp [memRead_eq_error_iff]

/-- Past the control checks SPAlignmentFault is raised by the SP step alone: no element read raises it. -/
theorem exec_eq_spAlignmentFault_iff {i : Instr} {s : State} (hen : s.Enabled) :
    exec i s = .fault .spAlignmentFault ↔ spAlignmentStep i s = some .spAlignmentFault := by
  rw [exec_eq_fault_iff, earlyFault_of_enabled hen, or_iff_left]
  rintro ⟨_, hload⟩
  obtain ⟨_, _, _, hread⟩ := loadElements_eq_error hload
  exact memRead_ne_spAlignmentFault hread

/-- Settles O14: the condition of the SP step, with each of its tests said of the state. -/
theorem spAlignmentFaultExactly : Obligations.SpAlignmentFaultExactly := by
  intro i s hen
  rw [exec_eq_spAlignmentFault_iff hen, spAlignmentStep_eq, Option.ite_none_right_eq_some, and_iff_left rfl,
    spCheckFails_iff, anyActive_eq_true_iff, and_assoc]

/-! ## DataAbort (R104) -/

/-- When `MemRead` raises DataAbort, and which byte it names: the lower one where both are unreadable (R41). -/
theorem memRead_eq_dataAbort_iff {s : State} {a b : Word64} {acc : AccessDescriptor} :
    memRead s a acc = .error (.dataAbort b) ↔
      (s.cfg.alignCheck && a.getLsbD 0) = false ∧ s.readable b = false ∧
        (b = a ∨ b = a + 1 ∧ s.readable a = true) := by
  simp only [memRead_eq_error_iff, Fault.dataAbort.injEq, reduceCtorEq, and_false, false_or, State.readable_eq_false_iff,
    State.readable_iff]
  constructor
  · rintro (⟨heven, h0, rfl⟩ | ⟨heven, h0, h1, rfl⟩)
    · exact ⟨heven, h0, .inl rfl⟩
    · exact ⟨heven, h1, .inr ⟨rfl, h0⟩⟩
  · rintro ⟨heven, hb, rfl | ⟨rfl, h0⟩⟩
    · exact .inl ⟨heven, hb, rfl⟩
    · exact .inr ⟨heven, h0, hb, rfl⟩

/-- No check raises DataAbort. -/
theorem earlyFault_ne_dataAbort {i : Instr} {s : State} {a : Word64} : earlyFault i s ≠ some (.dataAbort a) := by
  intro h
  simpa using eq_of_earlyFault_eq_some h

/-- Where alignment is not checked, a read of which a byte is unreadable raises DataAbort. -/
theorem memRead_dataAbort_of_unreadable {s : State} {a : Word64} {acc : AccessDescriptor} (hal : s.cfg.alignCheck = false)
    (h : s.readable a = false ∨ s.readable (a + 1) = false) : ∃ b, memRead s a acc = .error (.dataAbort b) := by
  have hpass : (s.cfg.alignCheck && a.getLsbD 0) = false := Bool.and_eq_false_iff.mpr (.inl hal)
  cases h0 : s.readable a with
  | false => exact ⟨a, memRead_eq_dataAbort_iff.mpr ⟨hpass, h0, .inl rfl⟩⟩
  | true => exact ⟨a + 1, memRead_eq_dataAbort_iff.mpr ⟨hpass, h.resolve_left (by simp [h0]), .inr ⟨rfl, h0⟩⟩⟩

/-- Where alignment is not checked, a read raises DataAbort or nothing. -/
theorem eq_dataAbort_of_memRead_error {s : State} {a : Word64} {acc : AccessDescriptor} {f : Fault}
    (hal : s.cfg.alignCheck = false) (h : memRead s a acc = .error f) : ∃ b, f = .dataAbort b := by
  rcases memRead_eq_error_iff.mp h with ⟨hchecked, _⟩ | ⟨_, _, rfl⟩ | ⟨_, _, _, rfl⟩
  · simp [hal] at hchecked
  · exact ⟨a, rfl⟩
  · exact ⟨a + 1, rfl⟩

/-- Settles O28: a DataAbort is that of an active element's read; and where no read can raise anything else, whichever read
is reported raised one. -/
theorem dataAbortNamesUnreadableByte : Obligations.DataAbortNamesUnreadableByte := by
  refine fun i s => ⟨fun a h => ?_, fun hen hsp hal ⟨k, hk, hact, hbyte⟩ => ?_⟩
  · obtain ⟨k, hk, hact, hread⟩ := exists_read_of_exec_fault h earlyFault_ne_dataAbort
    obtain ⟨_, hunreadable, hbyte⟩ := memRead_eq_dataAbort_iff.mp hread
    exact ⟨hunreadable, k, hk, hact, hbyte⟩
  · obtain ⟨_, hread⟩ := memRead_dataAbort_of_unreadable hal hbyte
    obtain ⟨f, hexec, _, _, _, hreported⟩ := exec_fault_of_read_error hen hsp hk hact hread
    obtain ⟨a, rfl⟩ := eq_dataAbort_of_memRead_error hal hreported
    exact ⟨a, hexec⟩

/-! ## AlignmentFault (R105) -/

/-- When `MemRead` raises AlignmentFault: alignment is checked and the address, which it records, is odd (R41, R43). -/
theorem memRead_eq_alignmentFault_iff {s : State} {a b : Word64} {acc : AccessDescriptor} :
    memRead s a acc = .error (.alignmentFault b) ↔ s.cfg.alignCheck = true ∧ a.getLsbD 0 = true ∧ b = a := by
  simp [memRead_eq_error_iff, and_assoc]

/-- No check raises AlignmentFault. -/
theorem earlyFault_ne_alignmentFault {i : Instr} {s : State} {a : Word64} :
    earlyFault i s ≠ some (.alignmentFault a) := by
  intro h
  simpa using eq_of_earlyFault_eq_some h

/-- The elements are 2 bytes apart, so each address has the parity of the start address (R47). -/
theorem getLsbD_zero_elementAddr (i : Instr) (s : State) (k : Nat) :
    (elementAddr i s k).getLsbD 0 = (startAddress s i.base i.nreg i.offset).getLsbD 0 := by
  rw [elementAddr, elementAddress, addressIncrement, BitVec.getLsbD_add (by decide), BitVec.carry_zero,
    BitVec.getLsbD_ofNat]
  simp

/-- Settles O29: where one active element is at an odd address all are, so whichever read is reported raised
AlignmentFault. -/
theorem alignmentFaultExactly : Obligations.AlignmentFaultExactly := by
  refine fun i s => ⟨fun a h => ?_, fun hen hsp hal ⟨k, hk, hact, hodd⟩ => ?_⟩
  · obtain ⟨k, hk, hact, hread⟩ := exists_read_of_exec_fault h earlyFault_ne_alignmentFault
    obtain ⟨hal, hodd, rfl⟩ := memRead_eq_alignmentFault_iff.mp hread
    exact ⟨hal, hodd, k, hk, hact, rfl⟩
  · have hraise : ∀ j, memRead s (elementAddr i s j) (accessDescriptor i.base) =
        .error (.alignmentFault (elementAddr i s j)) := fun j =>
      memRead_eq_alignmentFault_iff.mpr
        ⟨hal, by rw [getLsbD_zero_elementAddr, ← getLsbD_zero_elementAddr i s k, hodd], rfl⟩
    obtain ⟨f, hexec, j, _, _, hreported⟩ := exec_fault_of_read_error hen hsp hk hact (hraise k)
    obtain rfl := Except.error.inj ((hraise j).symm.trans hreported)
    exact ⟨_, hexec⟩

end Sys2Proof.Machine

/-! # The whole machine: every instruction through its word and its line, and what it makes of a state -/

namespace Sys2Proof

/-! ## The encoder loses no operand (R61 to R65)

Two words that are equal have equal fields, and the fields of a well-formed instruction determine its operands. -/

/-- Words side by side that are equal have equal fields. -/
theorem append_inj {m n : Nat} {x x' : BitVec m} {y y' : BitVec n} (h : x ++ y = x' ++ y') : x = x' ∧ y = y' := by
  constructor
  · rw [← BitVec.extractLsb'_append_eq_left (a := x) (b := y), h, BitVec.extractLsb'_append_eq_left]
  · rw [← BitVec.extractLsb'_append_eq_right (a := x) (b := y), h, BitVec.extractLsb'_append_eq_right]

theorem Base.number_lt (b : Base) : b.number < 32 := by
  cases b with
  | x n => exact n.isLt.trans (by decide)
  | sp => decide

theorem Base.eq_of_number_eq {b b' : Base} (h : b.number = b'.number) : b = b' := by
  cases b <;> cases b' <;> simp only [Base.number] at h
  case x.x => exact congrArg Base.x (Fin.ext h)
  case x.sp n => omega
  case sp.x n => omega
  case sp.sp => rfl

theorem toNat_encodeBase (b : Base) : (encodeBase b).toNat = b.number := by
  rw [encodeBase, BitVec.toNat_ofNat, Nat.mod_eq_of_lt b.number_lt]

theorem toNat_encodePn (g : Fin 16) : (encodePn g).toNat = g.val % 8 := BitVec.toNat_ofNat _ _

theorem toNat_encodeT (t : Fin 32) : (encodeT t).toNat = t.val / 16 := by
  have ht := t.isLt
  rw [encodeT, BitVec.toNat_ofNat]
  omega

theorem eq_of_encodeBase_eq {b b' : Base} (h : encodeBase b = encodeBase b') : b = b' :=
  Base.eq_of_number_eq (by rw [← toNat_encodeBase, h, toNat_encodeBase])

theorem eq_of_encodePn_eq {g g' : Fin 16} (hg : 8 ≤ g.val) (hg' : 8 ≤ g'.val) (h : encodePn g = encodePn g') : g = g' := by
  have hmod : g.val % 8 = g'.val % 8 := by rw [← toNat_encodePn, h, toNat_encodePn]
  omega

theorem eq_of_encodeOffset_eq {o o' : Int} (ho : -8 ≤ o ∧ o ≤ 7) (ho' : -8 ≤ o' ∧ o' ≤ 7)
    (h : encodeOffset o = encodeOffset o') : o = o' := by
  rw [← toInt_encodeOffset ho, h, toInt_encodeOffset ho']

/-- The field T and the low bits kept by the form are the whole number of a first destination of that form. -/
theorem eq_of_encodeT_eq {t t' : Fin 32} {bits : Nat} (ht : t.val % 16 < 2 ^ bits) (ht' : t'.val % 16 < 2 ^ bits)
    (hbits : 2 ^ bits ∣ 16) (hT : encodeT t = encodeT t') (hlow : BitVec.ofNat bits t.val = BitVec.ofNat bits t'.val) :
    t = t' := by
  have hdiv : t.val / 16 = t'.val / 16 := by rw [← toNat_encodeT, hT, toNat_encodeT]
  have hmod : t.val % 16 = t'.val % 16 := by
    have h := congrArg BitVec.toNat hlow
    rwa [BitVec.toNat_ofNat, BitVec.toNat_ofNat, ← Nat.mod_mod_of_dvd _ hbits, ← Nat.mod_mod_of_dvd t'.val hbits,
      Nat.mod_eq_of_lt ht, Nat.mod_eq_of_lt ht'] at h
  omega

/-- Every word of an instruction has the fixed bits of its row (R66). -/
theorem rowMatches_encode (i : Instr) : rowMatches (Laws.rowOf i) (encode i) = true := by
  cases i with
  | ld1hTwo t g b o => exact Laws.FixedBits.ld1hTwo t g b o
  | ld1hFour t g b o => exact Laws.FixedBits.ld1hFour t g b o

/-- The fields side by side, of either form, determine well-formed operands. -/
theorem operands_eq_of_fields_eq {t t' : Fin 32} {g g' : Fin 16} {b b' : Base} {o o' : Int} {m : BitVec 3} {gap bits : Nat}
    (hdest : t.val % 16 < 2 ^ bits) (hdest' : t'.val % 16 < 2 ^ bits) (hbits : 2 ^ bits ∣ 16)
    (hpred : 8 ≤ g.val) (hpred' : 8 ≤ g'.val) (hoffset : -8 ≤ o ∧ o ≤ 7) (hoffset' : -8 ≤ o' ∧ o' ≤ 7)
    (h : 0b101000010100#12 ++ encodeOffset o ++ m ++ encodePn g ++ encodeBase b ++ encodeT t ++ 0#gap ++
        BitVec.ofNat bits t.val =
      0b101000010100#12 ++ encodeOffset o' ++ m ++ encodePn g' ++ encodeBase b' ++ encodeT t' ++ 0#gap ++
        BitVec.ofNat bits t'.val) :
    t = t' ∧ g = g' ∧ b = b' ∧ o = o' := by
  obtain ⟨h, hlow⟩ := append_inj h
  obtain ⟨h, hT⟩ := append_inj (append_inj h).1
  obtain ⟨h, hbase⟩ := append_inj h
  obtain ⟨h, hpn⟩ := append_inj h
  obtain ⟨_, hoff⟩ := append_inj (append_inj h).1
  exact ⟨eq_of_encodeT_eq hdest hdest' hbits hT hlow, eq_of_encodePn_eq hpred hpred' hpn, eq_of_encodeBase_eq hbase,
    eq_of_encodeOffset_eq hoffset hoffset' hoff⟩

/-- Two well-formed instructions with the same word are one: of one form because no word has both rows' fixed bits. -/
theorem eq_of_encode_eq {i j : Instr} (hi : i.WellFormed) (hj : j.WellFormed) (h : encode i = encode j) : i = j := by
  have hrow := rowMatches_encode i
  rw [h] at hrow
  obtain ⟨hdest, hpred, hoffset⟩ := hi
  obtain ⟨hdest', hpred', hoffset'⟩ := hj
  cases i <;> cases j
  case ld1hTwo.ld1hTwo =>
    obtain ⟨rfl, rfl, rfl, rfl⟩ :=
      operands_eq_of_fields_eq (bits := 3) hdest hdest' (by decide) hpred hpred' hoffset hoffset' h
    rfl
  case ld1hFour.ld1hFour =>
    obtain ⟨rfl, rfl, rfl, rfl⟩ :=
      operands_eq_of_fields_eq (bits := 2) hdest hdest' (by decide) hpred hpred' hoffset hoffset' h
    rfl
  case ld1hTwo.ld1hFour => exact absurd hrow (not_rowMatches_rowTwo_of_rowFour (rowMatches_encode _))
  case ld1hFour.ld1hTwo => exact absurd (rowMatches_encode _) (not_rowMatches_rowTwo_of_rowFour hrow)

/-! ## Decoder and encoder are inverse (R66) -/

/-- Settles O4: the word has a row, so it decodes to a well-formed instruction of the same word, and there is no other. -/
theorem decodeOfEncode : Obligations.DecodeOfEncode := by
  intro i hwf
  have hrow : rowMatches rowTwo (encode i) = true ∨ rowMatches rowFour (encode i) = true := by
    cases i with
    | ld1hTwo t g b o => exact .inl (rowMatches_encode _)
    | ld1hFour t g b o => exact .inr (rowMatches_encode _)
  obtain ⟨j, hdecode, hwf', hencode⟩ := exists_decode_of_row hrow
  rw [hdecode, eq_of_encode_eq hwf' hwf hencode]

/-- Settles O5: a word that decodes has a row, and then it is the word of a well-formed instruction. -/
theorem encodeOfDecode : Obligations.EncodeOfDecode := by
  intro w i hdecode
  by_cases hrow : rowMatches rowTwo w = true ∨ rowMatches rowFour w = true
  · obtain ⟨j, hj, hwf, hencode⟩ := exists_decode_of_row hrow
    obtain rfl := Except.ok.inj (hdecode.symm.trans hj)
    exact ⟨hwf, hencode⟩
  · rw [decode_of_no_row hrow] at hdecode
    cases hdecode

/-- Settles O8, by running the decoder on each word. -/
theorem decodeOfHandWrittenWords : Obligations.DecodeOfHandWrittenWords := by
  unfold Obligations.DecodeOfHandWrittenWords
  decide

end Sys2Proof

namespace Sys2Proof.Machine

/-! ## Fetch and step -/

/-- Settles O1, from what is fetched and what a decoded word is. -/
theorem stepRunsDecodedInstruction : Obligations.StepRunsDecodedInstruction :=
  fun _ _ _ hpc hdecode => ⟨(encodeOfDecode _ _ hdecode).1, step_of_decode hpc.fetch_eq hdecode⟩

/-- A refusal of fetch is the outcome of the step. -/
theorem step_of_fetch_error {s : State} {r : Refusal} (h : fetch s = .error r) : step s = .refused r := by
  simp [step, h]

/-- At the end of a text shorter than the address space, fetch finds the run final (R124). -/
theorem fetch_of_isFinal {s : State} (hlen : 4 * s.text.length < 2 ^ 64) (h : s.isFinal) :
    fetch s = .error .endOfProgram := by
  have hoff : s.pcOffset = 4 * s.text.length := by
    rw [State.pcOffset, h, BitVec.add_comm, BitVec.add_sub_cancel, BitVec.toNat_ofNat, Nat.mod_eq_of_lt hlen]
  simp [fetch, hoff]

/-- A pc whose distance from the base is 4k stands at `code_base + 4k`. -/
theorem pc_eq_of_pcOffset_eq {s : State} {k : Nat} (h : s.pcOffset = 4 * k) :
    s.pc = s.codeBase + BitVec.ofNat 64 (4 * k) := by
  rw [← h, State.pcOffset, BitVec.ofNat_toNat, BitVec.setWidth_eq, BitVec.add_comm, BitVec.sub_add_cancel]

/-- Away from every word of the text and from its end, fetch finds no word (R118). -/
theorem fetch_of_outside {s : State}
    (h : ∀ k, k ≤ s.text.length → s.pc ≠ s.codeBase + BitVec.ofNat 64 (4 * k)) : fetch s = .error .pcOutsideText := by
  have hne : ∀ k ≤ s.text.length, s.pcOffset ≠ 4 * k := fun k hk he => h k hk (pc_eq_of_pcOffset_eq he)
  unfold fetch
  split
  · rename_i hmod
    have hlen : s.text.length ≤ s.pcOffset / 4 := by
      by_contra hlt
      exact hne (s.pcOffset / 4) (by omega) (by omega)
    rw [List.getElem?_eq_none hlen, if_neg (hne _ le_rfl)]
  · rfl

/-- Settles O3, from the two refusals of fetch. -/
theorem stepStopsAtEndAndOutsideText : Obligations.StepStopsAtEndAndOutsideText :=
  fun _ => ⟨fun hlen hfinal => step_of_fetch_error (fetch_of_isFinal hlen hfinal),
    fun hout => step_of_fetch_error (fetch_of_outside hout)⟩

/-! ## The invariant -/

/-- A register after the writes is a destination's value, of VL bits, or the old one. -/
theorem readZ_writeDestinations_lt {t : Fin 32} {tstride : Nat} {vl : VectorLength} {values : List Half} {n : Nat} {s : State}
    (h : ∀ m : Fin 32, (s.readZ m).toNat < 2 ^ vl.bits) (m : Fin 32) :
    ((writeDestinations t tstride vl.elements values n s).readZ m).toNat < 2 ^ vl.bits := by
  induction n with
  | zero => exact h m
  | succ n ih =>
    rw [writeDestinations]
    by_cases hm : m = destReg t tstride n
    · rw [hm, State.readZ_writeZ_same]
      exact registerValue_toNat_lt vl values n
    · rw [State.readZ_writeZ_other _ hm]
      exact ih

/-- A completed load keeps every Z register a value of VL bits (R23, D9). -/
theorem readZ_completeLoad_lt {i : Instr} {s : State} {values : List Half}
    (h : ∀ m : Fin 32, (s.readZ m).toNat < 2 ^ s.cfg.vl.bits) (m : Fin 32) :
    ((completeLoad i s values).readZ m).toNat < 2 ^ s.cfg.vl.bits := by
  rw [completeLoad, State.readZ_advancePc]
  exact readZ_writeDestinations_lt (fun n => by rw [readZ_drawStep]; exact h n) m

/-- Settles O36: only the Z registers, pc and the count of draws change, pc by 4 and the Z registers to values of VL bits. -/
theorem stepKeepsInvariant : Obligations.StepKeepsInvariant := by
  intro s t hinv hstep
  obtain ⟨hmem, hpc, hbase, htext, hz, hp⟩ := hinv
  obtain ⟨_, i, _, _, hexec⟩ := step_eq_next_iff.mp hstep
  obtain ⟨_, _, rfl⟩ := exec_eq_next_iff.mp hexec
  have hz' := readZ_completeLoad_lt (i := i) (values := elementValues i s) hz
  rw [completeLoad_eq] at hz' ⊢
  refine ⟨hmem, ?_, hbase, htext, hz', hp⟩
  rw [BitVec.toNat_add]
  change (s.pc.toNat + 4) % 2 ^ 64 % 4 = 0
  omega

end Sys2Proof.Machine

namespace Sys2Proof

/-! ## The formulas of R72 are the diagrams of R61 and R62 -/

/-- The formula of the two-register form sets each field of the diagram: bit for bit the same word. -/
theorem formula_two_eq (o : BitVec 4) (g : BitVec 3) (r : BitVec 5) (T : BitVec 1) (z : BitVec 3) :
    BitVec.ofNat 32 (0xA1402000 ||| o.toNat <<< 16 ||| g.toNat <<< 10 ||| r.toNat <<< 5 ||| T.toNat <<< 4 ||| z.toNat) =
      0b101000010100#12 ++ o ++ 0b001#3 ++ g ++ r ++ T ++ 0b0#1 ++ z := by
  have hfixed : (0xA1402000 : Nat) = (0xA1402000#32).toNat := rfl
  apply BitVec.eq_of_getLsbD_eq
  intro n hn
  rw [getLsbD_fields_two, BitVec.getLsbD_ofNat, hfixed]
  simp only [Nat.testBit_or, Nat.testBit_shiftLeft, BitVec.testBit_toNat]
  interval_cases n <;> simp

/-- The same for the four-register form. -/
theorem formula_four_eq (o : BitVec 4) (g : BitVec 3) (r : BitVec 5) (T : BitVec 1) (z : BitVec 2) :
    BitVec.ofNat 32 (0xA140A000 ||| o.toNat <<< 16 ||| g.toNat <<< 10 ||| r.toNat <<< 5 ||| T.toNat <<< 4 ||| z.toNat) =
      0b101000010100#12 ++ o ++ 0b101#3 ++ g ++ r ++ T ++ 0b00#2 ++ z := by
  have hfixed : (0xA140A000 : Nat) = (0xA140A000#32).toNat := rfl
  apply BitVec.eq_of_getLsbD_eq
  intro n hn
  rw [getLsbD_fields_four, BitVec.getLsbD_ofNat, hfixed]
  simp only [Nat.testBit_or, Nat.testBit_shiftLeft, BitVec.testBit_toNat]
  interval_cases n <;> simp

end Sys2Proof

namespace Sys2Proof.Machine

/-- The field of an immediate that is `nreg` times an offset is the encoded offset. -/
theorem immediate_field_eq {nreg : Int} (hn : nreg ≠ 0) (o : Int) :
    ((nreg * o / nreg) % 16).toNat = (encodeOffset o).toNat := by
  rw [Int.mul_ediv_cancel_left _ hn, ← toNat_encodeOffset, Int.toNat_natCast]

theorem pred_field_eq {g : Fin 16} (h : 8 ≤ g.val) : g.val - 8 = (encodePn g).toNat := by
  rw [toNat_encodePn]
  omega

theorem t_field_eq (t : Fin 32) : t.val >>> 4 = (encodeT t).toNat := by
  rw [toNat_encodeT, Nat.shiftRight_eq_div_pow]

/-- The low bits of the first destination's number. -/
theorem zt_field_eq {bits mask : Nat} (hmask : mask = 2 ^ bits - 1) (t : Fin 32) :
    t.val &&& mask = (BitVec.ofNat bits t.val).toNat := by
  rw [hmask, BitVec.toNat_ofNat, Nat.and_two_pow_sub_one_eq_mod]

/-! ## Which lines assemble (R71, R72) -/

/-- The conditions of R71 d and f. -/
theorem operandsOk_iff {l : AsmLine} {nreg : Nat} :
    l.operandsOk nreg = true ↔
      8 ≤ l.pred ∧ l.pred ≤ 15 ∧ l.immediate % nreg = 0 ∧ -8 * nreg ≤ l.immediate ∧ l.immediate ≤ 7 * nreg := by
  rw [AsmLine.operandsOk, decide_eq_true_iff]

/-- A line of two registers assembles, by the formula of R72, under the conditions of R71. -/
theorem assemble_two {l : AsmLine} {z1 z2 : Nat} (h : l.regs = [z1, z2]) :
    assemble l = if l.operandsOk 2 = true ∧ z1 < 32 ∧ z1 % 16 < 8 ∧ z2 = z1 + 8 then
      some (BitVec.ofNat 32 (0xA1402000 ||| ((l.immediate / 2) % 16).toNat <<< 16 ||| (l.pred - 8) <<< 10
        ||| l.base.number <<< 5 ||| (z1 >>> 4) <<< 4 ||| (z1 &&& 7))) else none := by
  simp only [assemble, h, Bool.and_eq_true, decide_eq_true_eq]

/-- A line of four registers likewise. -/
theorem assemble_four {l : AsmLine} {z1 z2 z3 z4 : Nat} (h : l.regs = [z1, z2, z3, z4]) :
    assemble l = if l.operandsOk 4 = true ∧ z1 < 32 ∧ z1 % 16 < 4 ∧ z2 = z1 + 4 ∧ z3 = z1 + 8 ∧ z4 = z1 + 12 then
      some (BitVec.ofNat 32 (0xA140A000 ||| ((l.immediate / 4) % 16).toNat <<< 16 ||| (l.pred - 8) <<< 10
        ||| l.base.number <<< 5 ||| (z1 >>> 4) <<< 4 ||| (z1 &&& 3))) else none := by
  simp only [assemble, h, Bool.and_eq_true, decide_eq_true_eq]

/-- A list of neither two nor four registers does not assemble (R71 a). -/
theorem length_regs_of_assemble {l : AsmLine} {w : InsnWord} (h : assemble l = some w) :
    (∃ z1 z2, l.regs = [z1, z2]) ∨ ∃ z1 z2 z3 z4, l.regs = [z1, z2, z3, z4] := by
  unfold assemble at h
  split at h
  · exact .inl ⟨_, _, ‹_›⟩
  · exact .inr ⟨_, _, _, _, ‹_›⟩
  · cases h

/-- The register list of the line of a well-formed instruction: `t + r * tstride` for each r (R69, R70). -/
theorem regs_disassemble {i : Instr} (hwf : i.WellFormed) :
    (disassemble i).regs = (List.range i.nreg).map fun r => i.zt1.val + r * i.tstride :=
  List.map_congr_left fun _ hr => destReg_val hwf (List.mem_range.mp hr)

/-- The operands of a well-formed instruction meet the conditions of R71 d and f. -/
theorem operandsOk_of_wellFormed {i : Instr} (hwf : i.WellFormed) {l : AsmLine} (hpred : l.pred = i.pn.val)
    (himm : l.immediate = i.nreg * i.offset) : l.operandsOk i.nreg = true := by
  obtain ⟨_, h8, hlo, hhi⟩ := hwf
  have h15 := i.pn.isLt
  rw [operandsOk_iff, hpred, himm]
  refine ⟨h8, by omega, Int.mul_emod_right _ _, ?_, ?_⟩
  · rw [mul_comm]
    exact Int.mul_le_mul_of_nonneg_left hlo (Int.natCast_nonneg _)
  · rw [mul_comm 7]
    exact Int.mul_le_mul_of_nonneg_left hhi (Int.natCast_nonneg _)

/-- A line with the operands of a well-formed instruction, its zero immediate written or not, assembles to its word. -/
theorem assemble_of_operands {i : Instr} (hwf : i.WellFormed) {l : AsmLine} (hregs : l.regs = (disassemble i).regs)
    (hpred : l.pred = i.pn.val) (hbase : l.base = i.base) (himm : l.immediate = i.nreg * i.offset) :
    assemble l = some (encode i) := by
  have hok := operandsOk_of_wellFormed hwf hpred himm
  rw [regs_disassemble hwf] at hregs
  obtain ⟨hdest, h8, _⟩ := hwf
  have ht := i.zt1.isLt
  cases i with
  | ld1hTwo t g b o =>
    rw [assemble_two hregs, if_pos ⟨hok, ht, hdest, rfl⟩, hpred, hbase, himm]
    simp only [Instr.nreg, Instr.tstride, Instr.zt1, Instr.pn, Instr.base, Instr.offset, Nat.cast_ofNat, zero_mul,
      add_zero]
    rw [immediate_field_eq (by decide), pred_field_eq (g := g) h8, t_field_eq,
      zt_field_eq (bits := 3) (mask := 7) rfl, ← toNat_encodeBase, formula_two_eq]
    rfl
  | ld1hFour t g b o =>
    rw [assemble_four hregs, if_pos ⟨hok, ht, hdest, rfl, rfl, rfl⟩, hpred, hbase, himm]
    simp only [Instr.nreg, Instr.tstride, Instr.zt1, Instr.pn, Instr.base, Instr.offset, Nat.cast_ofNat, zero_mul,
      add_zero]
    rw [immediate_field_eq (by decide), pred_field_eq (g := g) h8, t_field_eq,
      zt_field_eq (bits := 2) (mask := 3) rfl, ← toNat_encodeBase, formula_four_eq]
    rfl

/-- Settles O10: the printed line has the instruction's operands. -/
theorem assembleOfDisassemble : Obligations.AssembleOfDisassemble :=
  fun i hwf => assemble_of_operands hwf rfl rfl rfl (immediate_disassemble i)

/-- The instruction of a line that assembles: its operands, and its offset the immediate divided by `nreg`. -/
theorem exists_instr_of_assemble {l : AsmLine} {w : InsnWord} (h : assemble l = some w) :
    ∃ i : Instr, i.WellFormed ∧ l.regs = (disassemble i).regs ∧ l.pred = i.pn.val ∧ l.base = i.base ∧
      l.immediate = i.nreg * i.offset := by
  rcases length_regs_of_assemble h with ⟨z1, z2, hregs⟩ | ⟨z1, z2, z3, z4, hregs⟩
  · rw [assemble_two hregs, Option.ite_none_right_eq_some] at h
    obtain ⟨⟨hok, hz, hdest, rfl⟩, _⟩ := h
    obtain ⟨h8, h15, hmul, hlo, hhi⟩ := operandsOk_iff.mp hok
    have himm : l.immediate = 2 * (l.immediate / 2) := (Int.mul_ediv_cancel' (Int.dvd_of_emod_eq_zero hmul)).symm
    have hoffset : -8 ≤ l.immediate / 2 ∧ l.immediate / 2 ≤ 7 := by omega
    have hwf : (Instr.ld1hTwo ⟨z1, hz⟩ ⟨l.pred, by omega⟩ l.base (l.immediate / 2)).WellFormed := ⟨hdest, h8, hoffset⟩
    exact ⟨_, hwf, by rw [hregs, regs_disassemble hwf]; rfl, rfl, rfl, himm⟩
  · rw [assemble_four hregs, Option.ite_none_right_eq_some] at h
    obtain ⟨⟨hok, hz, hdest, rfl, rfl, rfl⟩, _⟩ := h
    obtain ⟨h8, h15, hmul, hlo, hhi⟩ := operandsOk_iff.mp hok
    have himm : l.immediate = 4 * (l.immediate / 4) := (Int.mul_ediv_cancel' (Int.dvd_of_emod_eq_zero hmul)).symm
    have hoffset : -8 ≤ l.immediate / 4 ∧ l.immediate / 4 ≤ 7 := by omega
    have hwf : (Instr.ld1hFour ⟨z1, hz⟩ ⟨l.pred, by omega⟩ l.base (l.immediate / 4)).WellFormed := ⟨hdest, h8, hoffset⟩
    exact ⟨_, hwf, by rw [hregs, regs_disassemble hwf]; rfl, rfl, rfl, himm⟩

/-- Settles O11: a line that assembles has an instruction's operands, and such a line has one word. -/
theorem assembleExactlyWellFormedLines : Obligations.AssembleExactlyWellFormedLines := by
  intro l w
  constructor
  · intro h
    obtain ⟨i, hwf, hregs, hpred, hbase, himm⟩ := exists_instr_of_assemble h
    have hw := (assemble_of_operands hwf hregs hpred hbase himm).symm.trans h
    exact ⟨i, hwf, Option.some.inj hw, hregs, hpred, hbase, himm⟩
  · rintro ⟨i, hwf, rfl, hregs, hpred, hbase, himm⟩
    exact assemble_of_operands hwf hregs hpred hbase himm

end Sys2Proof.Machine

namespace Sys2Proof.Machine

/-! ## The address of each element (R46, R47) -/

theorem elementAddr_eq_ofInt (i : Instr) (s : State) (k : Nat) :
    elementAddr i s k =
      BitVec.ofInt 64 ((baseValue s i.base).toNat + i.offset * i.nreg * s.cfg.vl.pl + 2 * k) := by
  have hdisp : displacement s.cfg.vl i.nreg i.offset = i.offset * i.nreg * s.cfg.vl.pl := by
    rw [displacement_eq, mul_comm (i.nreg : Int)]
  rw [elementAddr, elementAddress, addressIncrement, startAddress, addressAdd, hdisp, BitVec.ofInt_add _ (2 * (k : Int))]
  rfl

/-- One element further is one AddressIncrement by 2 further. -/
theorem elementAddr_succ (i : Instr) (s : State) (k : Nat) :
    elementAddr i s (k + 1) = addressIncrement (elementAddr i s k) 2 (accessDescriptor i.base) := by
  simp only [elementAddr, elementAddress, addressIncrement, Nat.mul_succ, BitVec.ofNat_add, BitVec.add_assoc]

/-- Settles O31, from the closed form of the address. -/
theorem elementAddresses : Obligations.ElementAddresses := by
  refine fun i s k => ⟨?_, elementAddr_succ i s k⟩
  rw [elementAddr_eq_ofInt, BitVec.toNat_ofInt, Int.toNat_of_nonneg (Int.emod_nonneg _ (by decide))]
  rfl

theorem pl_le_256 (vl : VectorLength) : vl.pl ≤ 256 := by cases vl <;> decide

/-- Settles O32: the offset is from -8 to 7, in units of `nreg` times VL/8, and VL/8 is at most 256. -/
theorem displacementRange : Obligations.DisplacementRange := by
  intro i vl hwf
  obtain ⟨_, _, hlo, hhi⟩ := hwf
  have hpl : (vl.pl : Int) ≤ 256 := by exact_mod_cast pl_le_256 vl
  have hlo' : -2048 ≤ i.offset * vl.pl := by nlinarith
  have hhi' : i.offset * vl.pl ≤ 1792 := by nlinarith
  rw [displacement_eq, mul_assoc, mul_comm (i.nreg : Int)]
  exact ⟨mul_le_mul_of_nonneg_right hlo' (Int.natCast_nonneg _), mul_le_mul_of_nonneg_right hhi' (Int.natCast_nonneg _)⟩

/-! ## When an instruction completes -/

/-- Settles O16: an instruction raises or completes. -/
theorem noInstructionIsRefused : Obligations.NoInstructionIsRefused := by
  intro i s r
  rw [exec_eq]
  rcases ld1hStrided_cases i s with ⟨f, _, h⟩ | ⟨_, f, _, h⟩ | ⟨_, _, h⟩ <;> simp [h]

/-- The element can be read exactly when its read answers a halfword (R121). -/
theorem elementReadable_iff {i : Instr} {s : State} {k : Nat} {acc : AccessDescriptor} :
    ElementReadable i s k ↔ ∃ h, memRead s (elementAddr i s k) acc = .ok h := by
  refine ⟨fun h => memRead_of_elementReadable h acc, fun ⟨v, hv⟩ => ?_⟩
  obtain ⟨heven, b0, b1, h0, h1, _⟩ := memRead_eq_ok_iff.mp hv
  exact ⟨State.readable_iff.mpr ⟨b0, h0⟩, State.readable_iff.mpr ⟨b1, h1⟩, fun hal => by rwa [hal, Bool.true_and] at heven⟩

/-- The element reads all answer exactly when every active element can be read. -/
theorem loadElements_eq_ok_iff_activeReadable {i : Instr} {s : State} :
    loadElements i s = .ok (elementValues i s) ↔ ActiveReadable i s := by
  rw [loadElements_eq_ok_iff, and_iff_right rfl]
  simp only [ActiveReadable, elementReadable_iff (acc := accessDescriptor i.base)]

/-- The SP check is not made or passes. -/
theorem spAlignmentStep_eq_none_iff {i : Instr} {s : State} :
    spAlignmentStep i s = none ↔
      ¬ (i.base = .sp ∧ s.spAlignCheck = true ∧ s.sp.toNat % 16 ≠ 0 ∧
        (anyActive i s = true ∨ Config.drawCheckSp s.draws = true)) := by
  simp only [spAlignmentStep_eq, ite_eq_right_iff, reduceCtorEq, imp_false, spCheckFails_iff, and_assoc]

/-- Settles O15: the checks pass and every element read answers. -/
theorem completesExactlyWhen : Obligations.CompletesExactlyWhen := by
  intro i s
  calc (∃ t, exec i s = .next t)
      ↔ earlyFault i s = none ∧ loadElements i s = .ok (elementValues i s) := by simp [exec_eq_next_iff]
    _ ↔ _ := by
      rw [earlyFault_eq_none_iff, loadElements_eq_ok_iff_activeReadable, spAlignmentStep_eq_none_iff]
      simp only [State.Enabled]
      tauto

/-- Settles O27, from the fault of an active element's read. -/
theorem reportedFaultIsAnActiveElements : Obligations.ReportedFaultIsAnActiveElements := by
  intro i s hen hsp ⟨k, f, hk, hact, hread⟩
  obtain ⟨g, hexec, j, hj, hactj, hreadj⟩ := exec_fault_of_read_error hen hsp hk hact hread
  exact ⟨j, g, hj, hactj, hreadj, hexec⟩

/-! ## What a completed load leaves (R90 to R92) -/

/-- The count of draws after the draw step. -/
theorem drawStep_draws (i : Instr) (s : State) : (drawStep i s).draws = drawsAfter i s := by
  unfold drawStep drawsAfter
  cases i.base with
  | x n => simp
  | sp => cases anyActive i s <;> simp

/-- A completed load changes the Z registers, pc and the count of draws alone. -/
theorem exec_next_eq {i : Instr} {s t : State} (h : exec i s = .next t) :
    t = { s with z := t.z, pc := s.pc + 4, draws := drawsAfter i s } := by
  obtain ⟨_, _, rfl⟩ := exec_eq_next_iff.mp h
  rw [completeLoad_eq, drawStep_draws]

/-- The destinations of any term, well formed or not, are pairwise distinct. -/
theorem destReg_ne_of_ne (i : Instr) {r r' : Nat} (hr : r < i.nreg) (hr' : r' < i.nreg) (hne : r ≠ r') :
    destReg i.zt1 i.tstride r ≠ destReg i.zt1 i.tstride r' := by
  intro he
  have hval := congrArg Fin.val he
  simp only [destReg, Fin.val_ofNat] at hval
  cases i <;> simp only [Instr.nreg, Instr.tstride] at * <;> omega

/-- The r-th destination after a completed load. -/
theorem readZ_destReg_of_exec {i : Instr} {s t : State} {r : Nat} (h : exec i s = .next t) (hr : r < i.nreg) :
    t.readZ (destReg i.zt1 i.tstride r) = registerValue s.cfg.vl.elements (elementValues i s) r := by
  obtain ⟨_, _, rfl⟩ := exec_eq_next_iff.mp h
  rw [completeLoad, State.readZ_advancePc]
  exact readZ_writeDestinations hr fun _ hr' hne => destReg_ne_of_ne i hr' hr hne

/-- Element e of the r-th destination is what element `r * elements + e` read. -/
theorem extract_readZ_destReg_of_exec {i : Instr} {s t : State} {r e : Nat} (h : exec i s = .next t) (hr : r < i.nreg)
    (he : e < s.cfg.vl.elements) : (t.readZ (destReg i.zt1 i.tstride r)).extractLsb' (16 * e) 16 =
      readHalf (elementRead i s (r * s.cfg.vl.elements + e)) := by
  rw [readZ_destReg_of_exec h hr, extract_registerValue he (elements_le_128 _),
    getD_elementValues (element_lt_elementCount hr he)]

/-- A register that is no destination keeps its value (R31, R92). -/
theorem readZ_other_of_exec {i : Instr} {s t : State} {n : Fin 32} (h : exec i s = .next t)
    (hn : ∀ r, r < i.nreg → n ≠ destReg i.zt1 i.tstride r) : t.readZ n = s.readZ n := by
  obtain ⟨_, _, rfl⟩ := exec_eq_next_iff.mp h
  rw [completeLoad, State.readZ_advancePc, readZ_writeDestinations_other hn, readZ_drawStep]

/-- Settles O19: only the destinations, pc and the count of draws change. -/
theorem frameOfLoad : Obligations.FrameOfLoad := by
  intro i s t h
  have hz : ∀ n : Fin 32, (∀ r, r < i.nreg → n ≠ destReg i.zt1 i.tstride r) → t.readZ n = s.readZ n :=
    fun n => readZ_other_of_exec h
  rw [exec_next_eq h] at hz ⊢
  exact ⟨fun _ => rfl, rfl, fun _ => rfl, hz, rfl, rfl, rfl, rfl, rfl, rfl, rfl, rfl, fun _ => rfl⟩

/-! ## The closed form of a load (R81, R82) -/

/-- Halfword k is active where bit 2k of the mask is set (R85, R86). -/
theorem elementActive_eq (i : Instr) (s : State) (k : Nat) :
    elementActive i s k =
      (counterToPredicate s.cfg ((s.readP i.pn).extractLsb' 0 16) (s.cfg.vl.pl * i.nreg)).getLsbD (2 * k) := by
  rw [elementActive, activePredicateElement, Nat.mul_comm k]
  rfl

/-- The halfword `h` that element k leaves: its two bytes in the data byte order if it is active, else zeros. -/
def ElementLoaded (i : Instr) (s : State) (k : Nat) (h : Half) : Prop :=
  if elementActive i s k = true then
    ∃ b0 b1, s.byteAt (elementAddr i s k) = some b0 ∧ s.byteAt (elementAddr i s k + 1) = some b1 ∧
      h = halfOfBytes s.cfg.bigEndian b0 b1
  else h = 0

/-- Where every active element can be read, each element reads what it is to leave. -/
theorem elementLoaded_of_activeReadable {i : Instr} {s : State} {k : Nat} (h : ActiveReadable i s)
    (hk : k < elementCount i s) : ElementLoaded i s k (readHalf (elementRead i s k)) := by
  unfold ElementLoaded
  split
  · rename_i hact
    obtain ⟨v, hread⟩ := memRead_of_elementReadable (h k hk hact) (accessDescriptor i.base)
    obtain ⟨_, b0, b1, h0, h1, hv⟩ := memRead_eq_ok_iff.mp hread
    rw [elementRead_of_active hact, hread]
    exact ⟨b0, b1, h0, h1, hv⟩
  · rename_i hinact
    rw [elementRead_of_inactive (Bool.not_eq_true _ ▸ hinact)]
    rfl

/-- The closed form of either load, under the launch premises of R121. -/
theorem load_completes {i : Instr} {s : State} (hwf : i.WellFormed) (hlaunch : LaunchOk i s) :
    ∃ t, exec i s = .next t ∧
      (∀ (r e : Nat) (n : Fin 32), r < i.nreg → e < s.cfg.vl.elements → n.val = i.zt1.val + r * i.tstride →
        ElementLoaded i s (r * s.cfg.vl.elements + e) ((t.readZ n).extractLsb' (16 * e) 16)) ∧
      (∀ (n : Fin 32) (r : Nat), r < i.nreg → n.val = i.zt1.val + r * i.tstride → (t.readZ n).toNat < 2 ^ s.cfg.vl.bits) ∧
      (∀ n : Fin 32, (∀ r, r < i.nreg → n.val ≠ i.zt1.val + r * i.tstride) → t.readZ n = s.readZ n) ∧
      t = { s with z := t.z, pc := s.pc + 4, draws := drawsAfter i s } := by
  obtain ⟨t, hexec⟩ := exec_next_of_launchOk hlaunch
  obtain ⟨_, _, hread⟩ := hlaunch
  have hdest : ∀ (n : Fin 32) (r : Nat), r < i.nreg → n.val = i.zt1.val + r * i.tstride → n = destReg i.zt1 i.tstride r :=
    fun n r hr hn => Fin.ext (hn.trans (destReg_val hwf hr).symm)
  refine ⟨t, hexec, fun r e n hr he hn => ?_, fun n r hr hn => ?_, fun n hn => ?_, exec_next_eq hexec⟩
  · rw [hdest n r hr hn, extract_readZ_destReg_of_exec hexec hr he]
    exact elementLoaded_of_activeReadable hread (element_lt_elementCount hr he)
  · rw [hdest n r hr hn, readZ_destReg_of_exec hexec hr]
    exact registerValue_toNat_lt _ _ r
  · exact readZ_other_of_exec hexec fun r hr he => hn r hr (by rw [he, destReg_val hwf hr])

/-- Settles O17, from the closed form of either load. -/
theorem loadTwoCompletes : Obligations.LoadTwoCompletes := by
  intro zt1 pn base offset s hwf hlaunch
  obtain ⟨t, hexec, hvalue, hwidth, hother, hframe⟩ := load_completes hwf hlaunch
  simp only [Instr.nreg, Instr.tstride, Instr.zt1] at hvalue hwidth hother
  refine ⟨t, hexec, fun r e n hr he hn => ?_, fun n hn => ?_, fun n h0 h1 => ?_, hframe⟩
  · have h := hvalue r e n hr he (by omega)
    rw [ElementLoaded, elementActive_eq, elementAddr_eq_ofInt] at h
    exact h
  · rcases hn with h0 | h1
    · exact hwidth n 0 (by decide) (by omega)
    · exact hwidth n 1 (by decide) (by omega)
  · refine hother n fun r hr => ?_
    interval_cases r <;> omega

/-- Settles O18, from the closed form of either load. -/
theorem loadFourCompletes : Obligations.LoadFourCompletes := by
  intro zt1 pn base offset s hwf hlaunch
  obtain ⟨t, hexec, hvalue, hwidth, hother, hframe⟩ := load_completes hwf hlaunch
  simp only [Instr.nreg, Instr.tstride, Instr.zt1, Nat.mul_comm _ 4] at hvalue hwidth hother
  refine ⟨t, hexec, fun r e n hr he hn => ?_, hwidth, hother, hframe⟩
  have h := hvalue r e n hr he hn
  rw [ElementLoaded, elementActive_eq, elementAddr_eq_ofInt] at h
  exact h

/-! ## No active element -/

/-- Registers of zero halfwords are zero. -/
theorem packHalves_eq_zero {hs : List Half} (h : ∀ v ∈ hs, v = 0) : packHalves hs = 0 := by
  induction hs with
  | nil => rfl
  | cons v rest ih =>
    obtain ⟨rfl, hrest⟩ := List.forall_mem_cons.mp h
    rw [packHalves, ih hrest]
    simp

theorem registerValue_eq_zero {values : List Half} (h : ∀ v ∈ values, v = 0) (elements r : Nat) :
    registerValue elements values r = 0 :=
  packHalves_eq_zero fun v hv => h v (List.mem_of_mem_drop (List.mem_of_mem_take hv))

/-- Settles O20: no element is read, so after the SP step nothing can raise, and every halfword is zero. -/
theorem noActiveElementWritesZeros : Obligations.NoActiveElementWritesZeros := by
  intro i s hen hnone
  have hany : anyActive i s = false := anyActive_eq_false_iff.mpr hnone
  have hstep : spAlignmentStep i s = if i.base = .sp ∧ s.spAlignCheck = true ∧ s.sp.toNat % 16 ≠ 0 ∧
      Config.drawCheckSp s.draws = true then some .spAlignmentFault else none := by
    simp only [spAlignmentStep_eq, spCheckFails_iff, hany, Bool.false_eq_true, false_or, and_assoc]
  split
  · rename_i hfails
    exact exec_of_earlyFault (by rw [earlyFault_of_enabled hen, hstep, if_pos hfails])
  · rename_i hpasses
    have hload : loadElements i s = .ok (elementValues i s) :=
      loadElements_eq_ok_iff.mpr ⟨rfl, fun k hk hact => absurd hact (by simp [hnone k hk])⟩
    have hexec := exec_eq_next_iff.mpr ⟨by rw [earlyFault_of_enabled hen, hstep, if_neg hpasses], hload, rfl⟩
    have hzero : ∀ v ∈ elementValues i s, v = 0 := by
      intro v hv
      obtain ⟨k, hk, rfl⟩ := List.mem_map.mp hv
      rw [elementRead_of_inactive (hnone k (List.mem_range.mp hk))]
      rfl
    exact ⟨_, hexec, fun r hr => (readZ_destReg_of_exec hexec hr).trans (registerValue_eq_zero hzero _ r),
      exec_next_eq hexec⟩

/-! ## A run ends (R124) -/

/-- A step that answers a next state takes pc from one word of the text to the next place in it. -/
theorem pcOffset_of_step {s t : State} (hlen : 4 * s.text.length < 2 ^ 64) (h : step s = .next t) :
    s.pcOffset + 4 ≤ 4 * s.text.length ∧ t.pcOffset = s.pcOffset + 4 := by
  obtain ⟨w, _, hfetch, _, _⟩ := step_eq_next_iff.mp h
  obtain ⟨hmod, hword⟩ := fetch_eq_ok_iff.mp hfetch
  have hlt := (List.getElem?_eq_some_iff.mp hword).1
  have hle : s.pcOffset + 4 ≤ 4 * s.text.length := by omega
  refine ⟨hle, ?_⟩
  rw [step_next_eq h]
  change (s.pc + 4 - s.codeBase).toNat = s.pcOffset + 4
  rw [show s.pc + 4 - s.codeBase = s.pc - s.codeBase + 4 by ring, BitVec.toNat_add]
  exact Nat.mod_eq_of_lt (hle.trans_lt hlen)

/-- A run stays within the text. -/
theorem pcOffset_le_of_run {k : Nat} {s t : State} (hlen : 4 * s.text.length < 2 ^ 64)
    (h : Host.Core.run core k s = .next t) : k = 0 ∨ s.pcOffset + 4 * k ≤ 4 * s.text.length := by
  induction k generalizing s with
  | zero => exact .inl rfl
  | succ k ih =>
    obtain ⟨u, hstep, hrun⟩ := run_succ_eq_next_iff.mp h
    obtain ⟨hle, hoff⟩ := pcOffset_of_step hlen hstep
    have htext : u.text = s.text := by rw [step_next_eq hstep]
    have hrest := ih (by rwa [htext]) hrun
    rw [htext, hoff] at hrest
    omega

/-- Settles O38: each step takes pc one word further and the text has m words. -/
theorem runLengthBounded : Obligations.RunLengthBounded := by
  intro k s t hlen hrun
  have hbound := pcOffset_le_of_run hlen hrun
  omega

/-! ## Reset -/

@[simp] theorem readX_reset (n : Fin 31) : State.reset.readX n = 0 := Vector.getElem_replicate _
@[simp] theorem readZ_reset (n : Fin 32) : State.reset.readZ n = 0 := Vector.getElem_replicate _
@[simp] theorem readP_reset (g : Fin 16) : State.reset.readP g = 0 := Vector.getElem_replicate _

/-- Settles O35: every register is zero and memory and text are empty. -/
theorem resetMeetsInvariant : Obligations.ResetMeetsInvariant := by
  refine ⟨Memory.wf_reset, rfl, rfl, by decide, fun n => ?_, fun g => ?_⟩
  · rw [readZ_reset, BitVec.ofNat_eq_ofNat, BitVec.toNat_zero]
    exact Nat.two_pow_pos _
  · rw [readP_reset, BitVec.ofNat_eq_ofNat, BitVec.toNat_zero]
    exact Nat.two_pow_pos _

/-- Settles O40, field by field. -/
theorem resetValues : Obligations.ResetValues :=
  ⟨readX_reset, rfl, rfl, readZ_reset, readP_reset, rfl, rfl, rfl, rfl, fun _ => rfl, rfl, rfl, rfl, rfl, rfl, rfl, rfl⟩

end Sys2Proof.Machine

namespace Sys2Proof.Machine

/-! ## Executions of two states compared: the predicate, the base, the old destinations, the draw -/

/-- The active elements depend on the configuration and the low 16 bits of the governing predicate alone (R24). -/
theorem elementActive_congr {i : Instr} {s s' : State} {k : Nat} (hcfg : s'.cfg = s.cfg)
    (hp : (s'.readP i.pn).extractLsb' 0 16 = (s.readP i.pn).extractLsb' 0 16) :
    elementActive i s' k = elementActive i s k := by
  rw [elementActive_eq, elementActive_eq, hp, hcfg]

/-- So does whether some element is active. -/
theorem anyActive_congr {i : Instr} {s s' : State} (hcfg : s'.cfg = s.cfg)
    (hp : (s'.readP i.pn).extractLsb' 0 16 = (s.readP i.pn).extractLsb' 0 16) : anyActive i s' = anyActive i s := by
  unfold anyActive governingMask
  rw [hp, hcfg]

/-- An element's address depends on the configuration and the base register alone (R47). -/
theorem elementAddr_congr {i : Instr} {s s' : State} {k : Nat} (hcfg : s'.cfg = s.cfg)
    (hbase : baseValue s' i.base = baseValue s i.base) : elementAddr i s' k = elementAddr i s k := by
  rw [elementAddr_eq_ofInt, elementAddr_eq_ofInt, hbase, hcfg]

/-- The read of an element depends on the configuration, memory, the governing predicate's low bits and the base. -/
theorem elementRead_congr {i : Instr} {s s' : State} {k : Nat} (hcfg : s'.cfg = s.cfg) (hmem : s'.mem = s.mem)
    (hp : (s'.readP i.pn).extractLsb' 0 16 = (s.readP i.pn).extractLsb' 0 16)
    (hbase : baseValue s' i.base = baseValue s i.base) : elementRead i s' k = elementRead i s k := by
  have hbyte : ∀ a, s'.byteAt a = s.byteAt a := fun a => by rw [State.byteAt, hmem, State.byteAt]
  rw [elementRead, elementRead, elementActive_congr hcfg hp, elementAddr_congr hcfg hbase,
    memRead_congr hcfg (hbyte _) (hbyte _)]

/-- The SP step depends on whether some element is active, on the draw and, with the base SP, on the SP check (R87). -/
theorem spAlignmentStep_congr {i : Instr} {s s' : State} (hany : anyActive i s' = anyActive i s)
    (hdraws : s'.draws = s.draws) (hsp : i.base = .sp → spCheckFails s' = spCheckFails s) :
    spAlignmentStep i s' = spAlignmentStep i s := by
  unfold spAlignmentStep
  split
  · rfl
  · rename_i hbase
    rw [hsp hbase, hany, hdraws]

/-- A change of state that leaves alone what the instruction writes and what it reads is passed on by the instruction. -/
theorem exec_mapNext_of_unread {i : Instr} {s : State} {f : State → State}
    (hf : ∀ z pc draws, f { s with z := z, pc := pc, draws := draws } = { f s with z := z, pc := pc, draws := draws })
    (hcfg : (f s).cfg = s.cfg) (hany : anyActive i (f s) = anyActive i s) (hearly : earlyFault i (f s) = earlyFault i s)
    (hread : ∀ k, elementRead i (f s) k = elementRead i s k) : exec i (f s) = mapNext f (exec i s) := by
  have hself : f s = { f s with z := s.z, pc := s.pc, draws := s.draws } := hf s.z s.pc s.draws
  have hz : (f s).z = s.z := by rw [hself]
  have hpc : (f s).pc = s.pc := by rw [hself]
  have hdraws : (f s).draws = s.draws := by rw [hself]
  refine exec_eq_mapNext hearly (loadElements_congr hcfg hdraws fun k _ => hread k) fun values => ?_
  calc completeLoad i (f s) values
      = { f s with z := (completeLoad i s values).z, pc := s.pc + 4, draws := (drawStep i s).draws } := by
        rw [completeLoad_eq, completeLoad_z_congr hcfg hz, hpc, drawStep_draws_congr hdraws hany]
    _ = f { s with z := (completeLoad i s values).z, pc := s.pc + 4, draws := (drawStep i s).draws } := (hf _ _ _).symm
    _ = f (completeLoad i s values) := by rw [← completeLoad_eq]

/-- Settles O22: the mask is made of the low 16 bits of the governing register, and nothing else reads the file. -/
theorem onlyLowSixteenPredicateBits : Obligations.OnlyLowSixteenPredicateBits := by
  intro i s p' hp
  have hany : anyActive i { s with p := p' } = anyActive i s := anyActive_congr rfl hp
  have hsp : spAlignmentStep i { s with p := p' } = spAlignmentStep i s := spAlignmentStep_congr hany rfl fun _ => rfl
  refine exec_mapNext_of_unread (f := fun t => { t with p := p' }) (fun _ _ _ => rfl) rfl hany ?_
    fun _ => elementRead_congr rfl rfl hp rfl
  rw [earlyFault, hsp]
  rfl

/-- Settles O25: the base register gives the address, and SP is tested only where it is the base. -/
theorem onlyBaseRegisterRead : Obligations.OnlyBaseRegisterRead := by
  refine fun i s x' sp' => ⟨fun n hn hx => ?_, fun hsp => ?_⟩
  · have hstep : spAlignmentStep i { s with x := x', sp := sp' } = spAlignmentStep i s :=
      spAlignmentStep_congr rfl rfl fun hbase => by rw [hn] at hbase; cases hbase
    have hbase : baseValue { s with x := x', sp := sp' } i.base = baseValue s i.base := by
      rw [hn]
      exact hx
    refine exec_mapNext_of_unread (f := fun t => { t with x := x', sp := sp' }) (fun _ _ _ => rfl) rfl rfl ?_
      fun _ => elementRead_congr rfl rfl rfl hbase
    rw [earlyFault, hstep]
    rfl
  · have hbase : baseValue { s with x := x' } i.base = baseValue s i.base := by rw [hsp]; rfl
    exact exec_mapNext_of_unread (f := fun t => { t with x := x' }) (fun _ _ _ => rfl) rfl rfl rfl
      fun _ => elementRead_congr rfl rfl rfl hbase

/-- Settles O24: the checks and reads see no Z register, and every destination is written whole. -/
theorem oldDestinationsIgnored : Obligations.OldDestinationsIgnored := by
  intro i s t z' h
  obtain ⟨hearly, hload, _⟩ := exec_eq_next_iff.mp h
  have h' : exec i { s with z := z' } = .next (completeLoad i { s with z := z' } (elementValues i s)) :=
    exec_eq_next_iff.mpr ⟨hearly, hload, rfl⟩
  exact ⟨_, h', fun r hr => (readZ_destReg_of_exec h' hr).trans (readZ_destReg_of_exec h hr).symm⟩

/-- Settles O26: the values gathered do not depend on the draw. -/
theorem drawDoesNotInfluenceCompletion : Obligations.DrawDoesNotInfluenceCompletion := by
  intro i s t t' d h h'
  obtain ⟨_, _, rfl⟩ := exec_eq_next_iff.mp h
  obtain ⟨_, _, rfl⟩ := exec_eq_next_iff.mp h'
  have hz : (completeLoad i { s with draws := d } (elementValues i s)).z = (completeLoad i s (elementValues i s)).z :=
    completeLoad_z_congr rfl rfl
  have hvalues : elementValues i { s with draws := d } = elementValues i s := rfl
  rw [hvalues, completeLoad_eq i { s with draws := d }, hz, completeLoad_eq i s]

/-! ## The byte order (R42) -/

/-- The two bytes of a halfword exchanged. -/
def swapHalf (h : Half) : Half := h.extractLsb' 0 8 ++ h.extractLsb' 8 8

theorem swapHalf_halfOfBytes (bigEndian : Bool) (b0 b1 : Byte) :
    swapHalf (halfOfBytes bigEndian b0 b1) = halfOfBytes (!bigEndian) b0 b1 := by
  cases bigEndian <;> exact congrArg₂ (· ++ ·) BitVec.extractLsb'_append_eq_right BitVec.extractLsb'_append_eq_left

/-- The state with the other byte order. -/
abbrev State.swapOrder (s : State) : State := { s with cfg := { s.cfg with bigEndian := !s.cfg.bigEndian } }

/-- With the other byte order a read raises the same fault or answers the halfword with its bytes exchanged. -/
theorem memRead_swapOrder (s : State) (a : Word64) (acc : AccessDescriptor) :
    memRead s.swapOrder a acc = (memRead s a acc).map swapHalf := by
  unfold memRead
  rw [show s.swapOrder.byteAt = s.byteAt from rfl]
  split
  · rfl
  · cases s.byteAt a with
    | none => rfl
    | some b0 =>
      cases s.byteAt (a + 1) with
      | none => rfl
      | some b1 => exact congrArg Except.ok (swapHalf_halfOfBytes _ b0 b1).symm

theorem elementRead_swapOrder (i : Instr) (s : State) (k : Nat) :
    elementRead i s.swapOrder k = (elementRead i s k).map swapHalf := by
  have hact : elementActive i s.swapOrder k = elementActive i s k := rfl
  cases h : elementActive i s k with
  | false =>
    rw [elementRead_of_inactive (hact.trans h), elementRead_of_inactive h]
    rfl
  | true =>
    rw [elementRead_of_active (hact.trans h), elementRead_of_active h]
    exact memRead_swapOrder s _ _

theorem readHalf_map_swapHalf (x : Except Fault Half) : readHalf (x.map swapHalf) = swapHalf (readHalf x) := by
  cases x with
  | error f => exact (by decide : (0 : Half) = swapHalf 0)
  | ok h => rfl

/-- An instruction that completes does so with the other byte order. -/
theorem exec_swapOrder {i : Instr} {s t : State} (h : exec i s = .next t) : ∃ t', exec i s.swapOrder = .next t' := by
  obtain ⟨henabled, hreadable, hsp⟩ := (completesExactlyWhen i s).mp ⟨t, h⟩
  exact (completesExactlyWhen i s.swapOrder).mpr ⟨henabled, hreadable, hsp⟩

/-- Above the vector length a destination has the bits 0, whatever was gathered. -/
theorem getLsbD_registerValue_of_ge {vl : VectorLength} {values : List Half} {r b : Nat} (h : vl.bits ≤ b) :
    (registerValue vl.elements values r).getLsbD b = false :=
  Nat.testBit_lt_two_pow ((registerValue_toNat_lt vl values r).trans_le (Nat.pow_le_pow_right (by decide) h))

/-- Settles O34: every element reads the same halfword with its bytes exchanged, and nothing else sees the order. -/
theorem bigEndianSwapsWithinHalfwords : Obligations.BigEndianSwapsWithinHalfwords := by
  intro i s t h
  obtain ⟨t', h'⟩ := exec_swapOrder h
  have hother : ∀ n : Fin 32, (∀ r, r < i.nreg → n ≠ destReg i.zt1 i.tstride r) → t'.readZ n = t.readZ n :=
    fun n hn => (readZ_other_of_exec h' hn).trans (readZ_other_of_exec h hn).symm
  refine ⟨t', h', fun r e hr he => ?_, fun n b hb => ?_, hother, ?_⟩
  · rw [extract_readZ_destReg_of_exec h' hr he, extract_readZ_destReg_of_exec h hr he, elementRead_swapOrder,
      readHalf_map_swapHalf]
    rfl
  · by_cases hn : ∃ r < i.nreg, n = destReg i.zt1 i.tstride r
    · obtain ⟨r, hr, rfl⟩ := hn
      rw [readZ_destReg_of_exec h' hr, readZ_destReg_of_exec h hr, getLsbD_registerValue_of_ge (vl := s.cfg.vl) hb]
      exact (getLsbD_registerValue_of_ge hb).symm
    · rw [hother n fun r hr he => hn ⟨r, hr, he⟩]
  · have ht := exec_next_eq h
    have ht' := exec_next_eq h'
    rw [ht', ht]
    rfl

end Sys2Proof.Machine

namespace Sys2Proof.Machine

/-! ## The predicate as counter (R85, R86) -/

/-- The count's highest bit is the logarithm of VL/2. -/
theorem two_pow_counterMaxbit (vl : VectorLength) : 2 ^ (counterMaxbit vl + 1) = vl.bits := by cases vl <;> decide

/-- With elements of `2 ^ (shift + 1)` bytes counted, byte 2k starts an element exactly where k is a multiple of `2 ^ shift`,
and that element is the one numbered `k / 2 ^ shift`. -/
theorem counterBit_of_shift {vl : VectorLength} {c : Half} {shift : Nat} (h : counterShift c = shift + 1) (k : Nat) :
    counterBit vl c (2 * k) = (k % 2 ^ shift == 0 &&
      (decide (k / 2 ^ shift < (c.extractLsb' (shift + 2) (counterMaxbit vl - (shift + 1))).toNat) != c.getLsbD 15)) := by
  have hmul : (2 * (k % 2 ^ shift) == 0) = (k % 2 ^ shift == 0) := Bool.eq_iff_iff.mpr (by simp)
  rw [counterBit, counterSize, counterCount, counterInvert, h, Nat.pow_succ', Nat.mul_mod_mul_left,
    Nat.mul_div_mul_left _ _ (by decide), hmul]

/-- With bytes counted every position starts an element, and halfword k is at byte 2k. -/
theorem counterBit_of_bytes {vl : VectorLength} {c : Half} (h : counterShift c = 0) (b : Nat) :
    counterBit vl c b = (decide (b < (c.extractLsb' 1 (counterMaxbit vl)).toNat) != c.getLsbD 15) := by
  simp [counterBit, counterSize, counterCount, counterInvert, h, Nat.mod_one]

/-- Settles O21: the bit of the expanded counter at byte 2k, for each size of counted element. -/
theorem counterActiveElements : Obligations.CounterActiveElements := by
  intro cfg c w k hk hw hunlisted
  refine ⟨two_pow_counterMaxbit cfg.vl, ?_⟩
  have hbit : activePredicateElement (counterToPredicate cfg c w) k 16 =
      (decide (c.extractLsb' 0 4 ≠ 0) && counterBit cfg.vl c (2 * k)) := by
    rw [activePredicateElement, counterToPredicate_of_unlisted hunlisted, getLsbD_recommendedCounterToPredicate,
      Nat.mul_comm k, decide_eq_true hk, decide_eq_true (hk.trans_le hw), Bool.and_true, Bool.and_true]
  rw [hbit]
  split
  · rename_i h0
    simp [h0]
  · rename_i h0
    rw [decide_eq_true h0, Bool.true_and]
    split
    · rename_i hc0
      exact counterBit_of_bytes (if_pos hc0) _
    · rename_i hc0
      split
      · rename_i hc1
        rw [counterBit_of_shift (shift := 0) (by rw [counterShift, if_neg hc0, if_pos hc1])]
        simp [Nat.mod_one]
      · rename_i hc1
        split
        · rename_i hc2
          exact counterBit_of_shift (shift := 1) (by rw [counterShift, if_neg hc0, if_neg hc1, if_pos hc2]) k
        · rename_i hc2
          exact counterBit_of_shift (shift := 2) (by rw [counterShift, if_neg hc0, if_neg hc1, if_neg hc2]) k

/-! ## Any function as `counter_to_predicate` (R5, D5) -/

/-- The entries that list the value of a function at every counter, for one width. -/
def entriesAt (f : Half → (w : Nat) → BitVec w) (w : Nat) : List CounterEntry :=
  (List.range (2 ^ 16)).map fun n =>
    { counter := BitVec.ofNat 16 n, width := w, mask := (f (BitVec.ofNat 16 n) w).setWidth 1024 }

theorem mem_entriesAt {f : Half → (w : Nat) → BitVec w} {w : Nat} {e : CounterEntry} :
    e ∈ entriesAt f w ↔ e.width = w ∧ e.mask = (f e.counter e.width).setWidth 1024 := by
  obtain ⟨c, width, mask⟩ := e
  simp only [entriesAt, List.mem_map, List.mem_range, CounterEntry.mk.injEq]
  constructor
  · rintro ⟨n, _, rfl, rfl, rfl⟩
    exact ⟨rfl, rfl⟩
  · rintro ⟨rfl, rfl⟩
    have hc : BitVec.ofNat 16 c.toNat = c := by rw [BitVec.ofNat_toNat, BitVec.setWidth_eq]
    exact ⟨c.toNat, c.isLt, hc, rfl, by rw [hc]⟩

/-- Settles O41: the table lists the function at every counter for both widths, and a mask has at most 1024 bits. -/
theorem counterToPredicateIsAnyFunction : Obligations.CounterToPredicateIsAnyFunction := by
  refine fun cfg f => ⟨entriesAt f (cfg.vl.pl * 2) ++ entriesAt f (cfg.vl.pl * 4), fun c w hw => ?_⟩
  have hmem : ∀ e : CounterEntry, e.width = w →
      (e ∈ entriesAt f (cfg.vl.pl * 2) ++ entriesAt f (cfg.vl.pl * 4) ↔ e.mask = (f e.counter w).setWidth 1024) := by
    intro e he
    rw [List.mem_append, mem_entriesAt, mem_entriesAt, ← or_and_right, he, and_iff_right hw]
  have hle : w ≤ 1024 := by
    have := pl_le_256 cfg.vl
    omega
  have hlisted := counterToPredicate_of_listed (cfg := { cfg with counterTable := _ }) (c := c)
    ⟨⟨c, w, (f c w).setWidth 1024⟩, (hmem _ rfl).mpr rfl, rfl, rfl⟩
    fun e he hc hwidth => by rw [(hmem e hwidth).mp he, hc]
  rw [hlisted, BitVec.setWidth_setWidth_of_le _ hle, BitVec.setWidth_eq]

end Sys2Proof.Machine

/-! # The source's Operation (R80): its loops gather and transfer what the model's procedure does -/

namespace Sys2Proof.Machine

/-! ## A register by its halfwords (R6, R7) -/

/-- Two registers with the same halfwords are one. -/
theorem eq_of_extract_eq {v v' : VecReg}
    (h : ∀ e < 128, v.extractLsb' (16 * e) 16 = v'.extractLsb' (16 * e) 16) : v = v' := by
  apply BitVec.eq_of_getLsbD_eq
  intro b hb
  have hbit := congrArg (fun x : Half => x.getLsbD (b % 16)) (h (b / 16) (by omega))
  simpa [BitVec.getLsbD_extractLsb', Nat.mod_lt, Nat.div_add_mod] using hbit

theorem getLsbD_ones16 (n : Nat) : (0xFFFF#2048).getLsbD n = decide (n < 16) := by
  rw [BitVec.getLsbD_ofNat, show (0xFFFF : Nat) = 2 ^ 16 - 1 from rfl, Nat.testBit_two_pow_sub_one]
  by_cases hn : n < 16
  · simp [hn, hn.trans (by decide : 16 < 2048)]
  · simp [hn]

/-- Setting a slice replaces that halfword and no other. -/
theorem extract_sliceSet (v : VecReg) {e e' : Nat} (he' : e' < 128) (x : Half) :
    (sliceSet v e x).extractLsb' (16 * e') 16 = if e' = e then x else v.extractLsb' (16 * e') 16 := by
  apply BitVec.eq_of_getLsbD_eq
  intro j hj
  have hb : 16 * e' + j < 2048 := by omega
  rw [sliceSet, BitVec.getLsbD_extractLsb', BitVec.getLsbD_or, BitVec.getLsbD_and, BitVec.getLsbD_not,
    BitVec.getLsbD_shiftLeft, BitVec.getLsbD_shiftLeft, getLsbD_ones16, BitVec.getLsbD_setWidth]
  rcases Nat.lt_trichotomy e' e with hlt | rfl | hgt
  · simp [hj, hb, hlt.ne, show 16 * e' + j < 16 * e by omega]
  · simp [hj, hb, hj.trans (by decide : 16 < 2048)]
  · have hge : 16 ≤ 16 * e' + j - 16 * e := by omega
    simp [hj, hb, hgt.ne', hge]

/-- Past its elements a register has zero halfwords. -/
theorem extract_registerValue_of_ge {elements e : Nat} (he : elements ≤ e) (h128 : e < 128) (values : List Half) (r : Nat) :
    (registerValue elements values r).extractLsb' (16 * e) 16 = 0 := by
  rw [registerValue, extract_packHalves _ _ h128, List.getD_eq_default]
  exact (List.length_take_le _ _).trans he

/-! ## Loops that raise -/

/-- What a computation answers has the one property, and what it raises the other. -/
def Yields {ε α : Type} (P : α → Prop) (E : ε → Prop) : Except ε α → Prop
  | .ok a => P a
  | .error f => E f

theorem Yields.bind {ε α β : Type} {P : α → Prop} {Q : β → Prop} {E : ε → Prop} {x : Except ε α} {f : α → Except ε β}
    (hx : Yields P E x) (hf : ∀ a, P a → Yields Q E (f a)) : Yields Q E (x >>= f) := by
  cases x with
  | ok a => exact hf a hx
  | error e => exact hx

/-- A loop over `0 .. n-1` whose body keeps an invariant ends with it or raises what a pass raises. -/
theorem yields_foldlM_range {ε β : Type} {P : Nat → β → Prop} {E : ε → Prop} {f : β → Nat → Except ε β} {b : β} {n : Nat}
    (hinit : P 0 b) (hbody : ∀ k < n, ∀ b, P k b → Yields (P (k + 1)) E (f b k)) :
    Yields (P n) E ((List.range n).foldlM f b) := by
  induction n with
  | zero => exact hinit
  | succ n ih =>
    rw [List.range_succ, List.foldlM_append]
    refine (ih fun k hk => hbody k (hk.trans (Nat.lt_succ_self n))).bind fun b hb => ?_
    rw [List.foldlM_cons]
    exact (hbody n (Nat.lt_succ_self n) b hb).bind fun _ h => h

/-! ## The first loop gathers the elements in order (R46, R47, R89) -/

/-- After the first n elements, all of whose reads answered: the address is that of the next, and the registers hold the
halfwords read so far and zeros elsewhere. -/
structure Gathered (i : Instr) (s : State) (n : Nat) (v : LoopVars) : Prop where
  addr : v.addr = elementAddr i s n
  reads : ∀ k < n, ∃ h, elementRead i s k = .ok h
  halves : ∀ (r : Fin 4) (e : Nat), e < 128 → (v.values[r]).extractLsb' (16 * e) 16 =
    if e < s.cfg.vl.elements ∧ r.val * s.cfg.vl.elements + e < n then
      readHalf (elementRead i s (r.val * s.cfg.vl.elements + e)) else 0

/-- What the first loop starts from has gathered nothing. -/
theorem gathered_zero (i : Instr) (s : State) :
    Gathered i s 0 { addr := startAddress s i.base i.nreg i.offset, values := Vector.replicate 4 0 } where
  addr := (BitVec.add_zero _).symm
  reads _ hk := absurd hk (Nat.not_lt_zero _)
  halves r e _ := by simp

/-- One pass of the inner loop is the read of the element at the address the loop has come to. -/
theorem elementBody_eq {i : Instr} {s : State} {r e : Nat} {v : LoopVars}
    (haddr : v.addr = elementAddr i s (r * s.cfg.vl.elements + e)) :
    elementBody i s r v e = (elementRead i s (r * s.cfg.vl.elements + e)).map fun x =>
      { addr := elementAddr i s (r * s.cfg.vl.elements + e + 1)
        values := v.values.set (Fin.ofNat 4 r) (sliceSet v.values[Fin.ofNat 4 r] e x) } := by
  unfold elementBody elementRead
  rw [elementAddr_succ, ← haddr]
  cases elementActive i s (r * s.cfg.vl.elements + e) with
  | false => rfl
  | true => cases memRead s v.addr (accessDescriptor i.base) <;> rfl

/-- Setting a slice of one of the four registers replaces that halfword of that register and no other. -/
theorem extract_set_sliceSet (values : Vector VecReg 4) (r r' : Fin 4) {e e' : Nat} (he' : e' < 128) (x : Half) :
    ((values.set r (sliceSet values[r] e x))[r']).extractLsb' (16 * e') 16 =
      if r' = r ∧ e' = e then x else (values[r']).extractLsb' (16 * e') 16 := by
  by_cases hr : r' = r
  · subst hr
    simp [extract_sliceSet _ he']
  · have hne : r.val ≠ r'.val := fun h => hr (Fin.ext h.symm)
    simp [hr, Vector.getElem_set_ne _ _ hne]

/-- Different places in the list have different element numbers. -/
theorem place_eq_of_index_eq {n r r' e e' : Nat} (he : e < n) (he' : e' < n) (h : r' * n + e' = r * n + e) :
    r' = r ∧ e' = e := by
  have hpos : 0 < n := Nat.zero_lt_of_lt he
  have hr : r' = r := by
    have hdiv := congrArg (· / n) h
    simpa [Nat.mul_comm _ n, Nat.mul_add_div hpos, Nat.div_eq_of_lt he, Nat.div_eq_of_lt he'] using hdiv
  subst hr
  exact ⟨rfl, by omega⟩

/-- One element more gathered. -/
theorem Gathered.succ {i : Instr} {s : State} {r e : Nat} {v : LoopVars} {x : Half} (hr : r < 4)
    (he : e < s.cfg.vl.elements) (hv : Gathered i s (r * s.cfg.vl.elements + e) v)
    (hread : elementRead i s (r * s.cfg.vl.elements + e) = .ok x) :
    Gathered i s (r * s.cfg.vl.elements + e + 1)
      { addr := elementAddr i s (r * s.cfg.vl.elements + e + 1)
        values := v.values.set (Fin.ofNat 4 r) (sliceSet v.values[Fin.ofNat 4 r] e x) } where
  addr := rfl
  reads k hk := by
    rcases Nat.lt_succ_iff_lt_or_eq.mp hk with hlt | rfl
    · exact hv.reads k hlt
    · exact ⟨x, hread⟩
  halves r' e' he' := by
    have hval : (Fin.ofNat 4 r).val = r := Nat.mod_eq_of_lt hr
    rw [extract_set_sliceSet _ _ _ he', hv.halves r' e' he']
    by_cases hplace : r' = Fin.ofNat 4 r ∧ e' = e
    · obtain ⟨rfl, rfl⟩ := hplace
      rw [hval, if_pos ⟨rfl, rfl⟩, if_pos ⟨he, Nat.lt_succ_self _⟩, hread]
      rfl
    · have hindex : e' < s.cfg.vl.elements →
          r'.val * s.cfg.vl.elements + e' ≠ r * s.cfg.vl.elements + e := fun hlt h =>
        hplace (by
          obtain ⟨hr', he'⟩ := place_eq_of_index_eq he hlt h
          exact ⟨Fin.ext (hr'.trans hval.symm), he'⟩)
      rw [if_neg hplace]
      refine if_congr (and_congr_right fun hlt => ?_) rfl rfl
      have := hindex hlt
      omega

/-- One pass of the inner loop gathers one element more, or raises what its read raises. -/
theorem elementBody_yields {i : Instr} {s : State} {r e : Nat} {v : LoopVars} (hr : r < i.nreg)
    (he : e < s.cfg.vl.elements) (hv : Gathered i s (r * s.cfg.vl.elements + e) v) :
    Yields (Gathered i s (r * s.cfg.vl.elements + e + 1))
      (fun f => ∃ k < elementCount i s, elementRead i s k = .error f) (elementBody i s r v e) := by
  rw [elementBody_eq hv.addr]
  cases hread : elementRead i s (r * s.cfg.vl.elements + e) with
  | error f => exact ⟨_, element_lt_elementCount hr he, hread⟩
  | ok x => exact hv.succ (hr.trans_le (nreg_le_4 i)) he hread

/-- The first loop gathers every element, or raises what the read of one raises. -/
theorem gatherLoop_yields {i : Instr} {s : State} {v : LoopVars} (hv : Gathered i s 0 v) :
    Yields (Gathered i s (elementCount i s)) (fun f => ∃ k < elementCount i s, elementRead i s k = .error f)
      (gatherLoop i s v) := by
  refine yields_foldlM_range (P := fun r => Gathered i s (r * s.cfg.vl.elements)) (by rwa [Nat.zero_mul])
    fun r hr u hu => ?_
  rw [Nat.succ_mul]
  exact yields_foldlM_range (P := fun e => Gathered i s (r * s.cfg.vl.elements + e)) hu
    fun e he _ => elementBody_yields hr he

/-- With every element gathered the registers have the values of the model's procedure. -/
theorem Gathered.values_eq {i : Instr} {s : State} {v : LoopVars} (hv : Gathered i s (elementCount i s) v) {r : Nat}
    (hr : r < i.nreg) :
    v.values[Fin.ofNat 4 r] = registerValue s.cfg.vl.elements (elementValues i s) r := by
  have hval : (Fin.ofNat 4 r).val = r := Nat.mod_eq_of_lt (hr.trans_le (nreg_le_4 i))
  refine eq_of_extract_eq fun e he => ?_
  rw [hv.halves _ e he, hval]
  by_cases hel : e < s.cfg.vl.elements
  · have hk := element_lt_elementCount hr hel
    rw [if_pos ⟨hel, hk⟩, extract_registerValue hel (elements_le_128 _), getD_elementValues hk]
  · rw [if_neg fun h => hel h.1, extract_registerValue_of_ge (Nat.le_of_not_lt hel) he]

/-! ## The second loop transfers the registers (R90) -/

/-- The second loop, after n passes: the first n destinations are written and `transfer` is the number of the next. -/
theorem foldl_transfer_eq {t : Fin 32} {tstride elements n : Nat} {values : List Half} {regs : Vector VecReg 4} {s : State}
    (h : ∀ r < n, regs[Fin.ofNat 4 r] = registerValue elements values r) :
    (List.range n).foldl
        (fun (st : State × Nat) r => (st.1.writeZ (Fin.ofNat 32 st.2) regs[Fin.ofNat 4 r], st.2 + tstride)) (s, t.val) =
      (writeDestinations t tstride elements values n s, t.val + n * tstride) := by
  induction n with
  | zero => simp [writeDestinations]
  | succ n ih =>
    rw [List.range_succ, List.foldl_append, ih fun r hr => h r (hr.trans (Nat.lt_succ_self n)), List.foldl_cons,
      List.foldl_nil, h n (Nat.lt_succ_self n), Nat.succ_mul, ← Nat.add_assoc]
    rfl

/-- With every element gathered the second loop completes the load. -/
theorem transferLoop_eq {i : Instr} {s : State} {v : LoopVars} (hv : Gathered i s (elementCount i s) v) :
    (transferLoop i v.values (drawStep i s)).1.advancePc = completeLoad i s (elementValues i s) := by
  rw [transferLoop, foldl_transfer_eq fun _ => hv.values_eq, completeLoad]

/-! ## The Operation as a whole -/

theorem number_eq_31_iff {b : Base} : b.number = 31 ↔ b = .sp := by
  cases b with
  | x n => simp [Base.number, n.isLt.ne]
  | sp => simp [Base.number]

theorem orRaise_or (a b : Option Fault) : orRaise (a.or b) = orRaise a >>= fun _ => orRaise b := by
  cases a <;> rfl

theorem orRaise_none_bind {α : Type} (f : Unit → Except Fault α) : orRaise none >>= f = f () := rfl

/-- The SP step is CheckSPAlignment, made with the base SP where some element is active or the draw says so (R87). -/
theorem spAlignmentStep_eq_checkSPAlignment (i : Instr) (s : State) :
    spAlignmentStep i s = if i.base = .sp ∧ (anyActive i s = true ∨ Config.drawCheckSp s.draws = true) then
      checkSPAlignment s else none := by
  rw [spAlignmentStep_eq, checkSPAlignment]
  split_ifs <;> tauto

/-- The two loops of the Operation, past its checks. -/
def operationLoops (i : Instr) (s : State) : Except Fault State := do
  let vars ← gatherLoop i s { addr := startAddress s i.base i.nreg i.offset, values := Vector.replicate 4 0 }
  return (transferLoop i vars.values (drawStep i s)).1.advancePc

/-- The Operation with its loops named. -/
theorem operation_eq_checks_loops (i : Instr) (s : State) :
    operation i s = (do
      orRaise (checkFeature s i)
      orRaise (checkStreamingSVEEnabled s)
      if anyActive i s then
        if i.base.number = 31 then orRaise (checkSPAlignment s)
      else
        if i.base.number = 31 && Config.drawCheckSp s.draws then orRaise (checkSPAlignment s)
      operationLoops i s) := rfl

/-- The Operation is the checks in the model's order, then its two loops. -/
theorem operation_eq (i : Instr) (s : State) :
    operation i s = orRaise (earlyFault i s) >>= fun _ => operationLoops i s := by
  rw [operation_eq_checks_loops, earlyFault, orRaise_or, orRaise_or, bind_assoc, bind_assoc,
    spAlignmentStep_eq_checkSPAlignment]
  congr 1
  funext _
  congr 1
  funext _
  by_cases hbase : i.base = .sp
  · cases hany : anyActive i s <;> cases hdraw : Config.drawCheckSp s.draws <;>
      simp [number_eq_31_iff, hbase, orRaise_none_bind]
  · cases hany : anyActive i s <;> simp [number_eq_31_iff, hbase, orRaise_none_bind]

/-- The loops complete the load, with every read answering, or raise what an element's read raises. -/
theorem operationLoops_yields (i : Instr) (s : State) :
    Yields (fun t => loadElements i s = .ok (elementValues i s) ∧ t = completeLoad i s (elementValues i s))
      (fun f => ∃ k < elementCount i s, elementRead i s k = .error f) (operationLoops i s) := by
  refine (gatherLoop_yields (gathered_zero i s)).bind fun v hv => ⟨?_, transferLoop_eq hv⟩
  exact loadElements_eq_ok_iff.mpr ⟨rfl, fun k hk hact => elementRead_of_active hact ▸ hv.reads k hk⟩

/-- The read of an element raises exactly where it is active and its `MemRead` raises. -/
theorem elementRead_eq_error_iff {i : Instr} {s : State} {k : Nat} {f : Fault} :
    elementRead i s k = .error f ↔
      elementActive i s k = true ∧ memRead s (elementAddr i s k) (accessDescriptor i.base) = .error f := by
  cases h : elementActive i s k with
  | false => simp [elementRead_of_inactive h]
  | true => simp [elementRead_of_active h]

/-- Where the read of an active element raises, step S7 raises. -/
theorem exists_loadElements_error {i : Instr} {s : State} {k : Nat} {f : Fault} (hk : k < elementCount i s)
    (hact : elementActive i s k = true) (hread : memRead s (elementAddr i s k) (accessDescriptor i.base) = .error f) :
    ∃ g, loadElements i s = .error g := by
  cases hload : loadElements i s with
  | error g => exact ⟨g, rfl⟩
  | ok values =>
    obtain ⟨v, hv⟩ := (loadElements_eq_ok_iff.mp hload).2 k hk hact
    rw [hread] at hv
    cases hv

/-- Settles O39: past the same checks, the loops complete the load or raise the fault of an active element's read. -/
theorem operationAgreesWithExec : Obligations.OperationAgreesWithExec := by
  intro i s
  rw [operation_eq]
  cases hearly : earlyFault i s with
  | some e =>
    exact ⟨fun _ h => (nomatch h), fun f h => ⟨e, exec_of_earlyFault hearly, .inl (Except.error.inj h)⟩⟩
  | none =>
    change (∀ t, operationLoops i s = .ok t → _) ∧ ∀ f, operationLoops i s = .error f → _
    have hyields := operationLoops_yields i s
    constructor
    · intro t hloops
      rw [hloops] at hyields
      obtain ⟨hload, ht⟩ := hyields
      exact exec_eq_next_iff.mpr ⟨hearly, hload, ht⟩
    · intro f hloops
      rw [hloops] at hyields
      obtain ⟨k, hk, helement⟩ := hyields
      obtain ⟨hact, hread⟩ := elementRead_eq_error_iff.mp helement
      obtain ⟨g, hload⟩ := exists_loadElements_error hk hact hread
      exact ⟨g, exec_eq_fault_iff.mpr (.inr ⟨hearly, hload⟩), .inr ⟨⟨k, hk, hact, hread⟩, loadElements_eq_error hload⟩⟩

end Sys2Proof.Machine
